-- ==== Sys2Proof/Word.lean ====
section
/-! DEFINITION. The two bit-vector types of the machine (`00_scope.md` rules R4 and R6): a 16-bit word and an
8-bit field or address. Readings of a word (`s16`, `pat16`) stand in `Machine/Operands.lean`. -/

namespace Sys2Proof

/-- A 16-bit pattern: a memory word, an instruction word, the accumulator (R4, R6). -/
abbrev Word := BitVec 16

/-- An 8-bit pattern: an opcode, an operand, a word address, the instruction counter (R4, R12). -/
abbrev Byte := BitVec 8

end Sys2Proof
end

