-- ==== Sys2Proof/Config.lean ====
section
/-! DEFINITION. The named parameters of `00_scope.md` rule R5 that the machine's behaviour depends on, as plain
data. Their defaults stand in `Decode.lean` (`OPC`) and `Machine/Defaults.lean` (the others). `IN_W` and `ALU_W`
are no fields: R141 lets the model take READ's integer unbounded and D14 lets it compute in the integers
(log 8, log 9). -/

namespace Sys2Proof

/-- `LSR_VARIANT` (R5, R111, conflict C1). -/
inductive LsrVariant where
  | arithmetic
  | logical
deriving DecidableEq, Repr

/-- `DIV_ROUNDING` (R5, R96). -/
inductive DivRounding where
  | truncate
  | floor
deriving DecidableEq, Repr

/-- `IC_WRAP` (R5, R13, conflict C2). -/
inductive IcWrap where
  | wrap
  | fault
deriving DecidableEq, Repr

/-- The 21 mnemonics of `30_encoding.md` rule R55, in the source's order. -/
inductive Mnemonic where
  | add | sub | mul | div | mod
  | and | orr | xor | not
  | lsr | asr | lsl
  | b | bneg | bpos | bzro
  | load | stor
  | read | wrte
  | halt
deriving DecidableEq, Repr

/-- The mnemonics of R55 as a list, in its order. -/
def Mnemonic.all : List Mnemonic :=
  [.add, .sub, .mul, .div, .mod, .and, .orr, .xor, .not, .lsr, .asr, .lsl,
    .b, .bneg, .bpos, .bzro, .load, .stor, .read, .wrte, .halt]

/-- `OPC` (R5, R56): the opcode number of each mnemonic, as plain data. R5's constraints on it are
`OpcodeMap.wf`. -/
structure OpcodeMap where
  add : Byte
  sub : Byte
  mul : Byte
  div : Byte
  mod : Byte
  and : Byte
  orr : Byte
  xor : Byte
  not : Byte
  lsr : Byte
  asr : Byte
  lsl : Byte
  b : Byte
  bneg : Byte
  bpos : Byte
  bzro : Byte
  load : Byte
  stor : Byte
  read : Byte
  wrte : Byte
  halt : Byte
deriving DecidableEq, Repr

/-- `OPC(m)` of R56. -/
def OpcodeMap.code (opc : OpcodeMap) : Mnemonic → Byte
  | .add => opc.add
  | .sub => opc.sub
  | .mul => opc.mul
  | .div => opc.div
  | .mod => opc.mod
  | .and => opc.and
  | .orr => opc.orr
  | .xor => opc.xor
  | .not => opc.not
  | .lsr => opc.lsr
  | .asr => opc.asr
  | .lsl => opc.lsl
  | .b => opc.b
  | .bneg => opc.bneg
  | .bpos => opc.bpos
  | .bzro => opc.bzro
  | .load => opc.load
  | .stor => opc.stor
  | .read => opc.read
  | .wrte => opc.wrte
  | .halt => opc.halt

/-- The parameters of R5 a step depends on. -/
structure Config where
  opc : OpcodeMap
  lsrVariant : LsrVariant
  divRounding : DivRounding
  icWrap : IcWrap
deriving DecidableEq, Repr

end Sys2Proof
end

