-- ==== Sys2Proof/Syntax.lean ====
section
/-! DEFINITION. The instruction set: the 21 instructions of `30_encoding.md` rule R55, one constructor each. Every
instruction carries the 8 bits of its operand field (R51, R52), the five that ignore it included (R54), so that no
bit of a word is lost between the word and its instruction. An opcode no mnemonic owns is no instruction: it decodes
to `Decoded.undefined` (`Decode.lean`). -/

namespace Sys2Proof

/-- R55's 21 instructions. `a` is the operand field: a word address, a branch target, or ignored (R54). -/
inductive Instr where
  /-- R91 -/ | add (a : Byte)
  /-- R92 -/ | sub (a : Byte)
  /-- R93 -/ | mul (a : Byte)
  /-- R94 -/ | div (a : Byte)
  /-- R95 -/ | mod (a : Byte)
  /-- R101 -/ | and (a : Byte)
  /-- R102 -/ | orr (a : Byte)
  /-- R103 -/ | xor (a : Byte)
  /-- R104; operand ignored -/ | not (a : Byte)
  /-- R111; operand ignored -/ | lsr (a : Byte)
  /-- R112; operand ignored -/ | asr (a : Byte)
  /-- R113; operand ignored -/ | lsl (a : Byte)
  /-- R121 -/ | b (a : Byte)
  /-- R122 -/ | bneg (a : Byte)
  /-- R123 -/ | bpos (a : Byte)
  /-- R124 -/ | bzro (a : Byte)
  /-- R131 -/ | load (a : Byte)
  /-- R132 -/ | stor (a : Byte)
  /-- R143 -/ | read (a : Byte)
  /-- R144 -/ | wrte (a : Byte)
  /-- R150; operand ignored -/ | halt (a : Byte)
deriving DecidableEq, Repr

end Sys2Proof
end

