-- ==== Sys2Proof/WellFormed.lean ====
section
/-! DEFINITION. The checks on data that reaches the machine from outside it: the opcode map (`00_scope.md` rule R5)
and the loader's image (`70_reset_and_hazards.md` rule R193). An instruction needs no check: its one field is a
`Byte`, and every value of it is legal (`30_encoding.md` rules R52 and R54, `20_memory.md` rule R34). -/

namespace Sys2Proof

/-- R5 on `OPC`: `OPC(HALT) = 0xFF`. -/
def OpcodeMap.haltIsFF (opc : OpcodeMap) : Bool := opc.halt == 0xFF#8

/-- R5 on `OPC`: 0x99 is not in the image. -/
def OpcodeMap.avoids99 (opc : OpcodeMap) : Bool := Mnemonic.all.all fun m => opc.code m != 0x99#8

/-- R5 on `OPC`: injective, that is no two mnemonics share a number. -/
def OpcodeMap.injective (opc : OpcodeMap) : Bool := decide (Mnemonic.all.map opc.code).Nodup

/-- R5's constraint on `OPC`, whole. -/
def OpcodeMap.wf (opc : OpcodeMap) : Bool := opc.injective && opc.haltIsFF && opc.avoids99

/-- The loader's pairs of a memory address and a word, as numbers not yet checked (R167, R193). -/
abbrev RawImage := List (Nat × Nat)

/-- R193: "indices 0-255, each a 16-bit unsigned value in [0x0000, 0xFFFF]". An image that fails this is a
load-time error (R167) and launches nothing. -/
def RawImage.wf (img : RawImage) : Bool := img.all fun p => decide (p.1 < 256) && decide (p.2 < 65536)

end Sys2Proof
end

