-- ==== Sys2Proof/Decode.lean ====
section
/-! DEFINITION. The instruction decoder (`30_encoding.md` rules R50 to R58), the default opcode map (R56), and the
encoder written from the same rules. -/

namespace Sys2Proof

/-- R56's default `OPC`. The numbers but HALT's are the spec's own choice (D2, log 4). -/
def OpcodeMap.standard : OpcodeMap where
  add := 0x30#8
  sub := 0x31#8
  mul := 0x32#8
  div := 0x33#8
  mod := 0x34#8
  and := 0x40#8
  orr := 0x41#8
  xor := 0x42#8
  not := 0x43#8
  lsr := 0x50#8
  asr := 0x51#8
  lsl := 0x52#8
  b := 0x60#8
  bneg := 0x61#8
  bpos := 0x62#8
  bzro := 0x63#8
  load := 0x20#8
  stor := 0x21#8
  read := 0x10#8
  wrte := 0x11#8
  halt := 0xFF#8

/-- `opcode = w[15:8]` (R51, R53). -/
def opcodeOf (w : Word) : Byte := w.extractLsb' 8 8

/-- `operand = w[7:0]` (R51, R52, R53). -/
def operandOf (w : Word) : Byte := w.extractLsb' 0 8

/-- `{opcode, operand}` (R51). -/
def wordOf (opcode operand : Byte) : Word := opcode ++ operand

/-- The instruction with mnemonic `m` and operand field `a` (R57's pair `(m, a)`). -/
def Instr.ofMnemonic (m : Mnemonic) (a : Byte) : Instr :=
  match m with
  | .add => .add a
  | .sub => .sub a
  | .mul => .mul a
  | .div => .div a
  | .mod => .mod a
  | .and => .and a
  | .orr => .orr a
  | .xor => .xor a
  | .not => .not a
  | .lsr => .lsr a
  | .asr => .asr a
  | .lsl => .lsl a
  | .b => .b a
  | .bneg => .bneg a
  | .bpos => .bpos a
  | .bzro => .bzro a
  | .load => .load a
  | .stor => .stor a
  | .read => .read a
  | .wrte => .wrte a
  | .halt => .halt a

/-- The mnemonic of an instruction (R55). -/
def Instr.mnemonic : Instr → Mnemonic
  | .add _ => .add
  | .sub _ => .sub
  | .mul _ => .mul
  | .div _ => .div
  | .mod _ => .mod
  | .and _ => .and
  | .orr _ => .orr
  | .xor _ => .xor
  | .not _ => .not
  | .lsr _ => .lsr
  | .asr _ => .asr
  | .lsl _ => .lsl
  | .b _ => .b
  | .bneg _ => .bneg
  | .bpos _ => .bpos
  | .bzro _ => .bzro
  | .load _ => .load
  | .stor _ => .stor
  | .read _ => .read
  | .wrte _ => .wrte
  | .halt _ => .halt

/-- The operand field of an instruction (R51). -/
def Instr.operand : Instr → Byte
  | .add a => a
  | .sub a => a
  | .mul a => a
  | .div a => a
  | .mod a => a
  | .and a => a
  | .orr a => a
  | .xor a => a
  | .not a => a
  | .lsr a => a
  | .asr a => a
  | .lsl a => a
  | .b a => a
  | .bneg a => a
  | .bpos a => a
  | .bzro a => a
  | .load a => a
  | .stor a => a
  | .read a => a
  | .wrte a => a
  | .halt a => a

/-- What a word decodes to (R57): an instruction, or `UNDEFINED` with the word's two halves. -/
inductive Decoded where
  | instr (i : Instr)
  | undefined (opcode operand : Byte)
deriving DecidableEq, Repr

/-- The mnemonic that owns an opcode value, if one does (R57, R75). On a map that is not injective, which R5
excludes, the first in R55's order is taken (log 24). -/
def mnemonicOf (opc : OpcodeMap) (code : Byte) : Option Mnemonic :=
  Mnemonic.all.find? fun m => opc.code m == code

/-- `dec(w)` of R57, total on all words. -/
def decode (opc : OpcodeMap) (w : Word) : Decoded :=
  match mnemonicOf opc (opcodeOf w) with
  | some m => .instr (Instr.ofMnemonic m (operandOf w))
  | none => .undefined (opcodeOf w) (operandOf w)

/-- `enc(m, a)` of R57. -/
def encode (opc : OpcodeMap) (i : Instr) : Word := wordOf (opc.code i.mnemonic) i.operand

/-- The instruction the decoder reads, under the default `OPC`, from an instruction whose low `nbits` bits are those
of `w` and whose other bits are 0. -/
def decodeTableWord (nbits w : Nat) : Option Instr :=
  match decode OpcodeMap.standard (BitVec.ofNat 16 (w % 2 ^ nbits)) with
  | .instr i => some i
  | .undefined _ _ => none

end Sys2Proof
end

