-- ==== Sys2Proof/Machine/Defaults.lean ====
section
/-! DEFINITION. The defaults of `00_scope.md` rule R5. -/

namespace Sys2Proof.Machine

/-- R5's defaults: the `OPC` of R56, `LSR_VARIANT = arithmetic` (D3), `DIV_ROUNDING = truncate` (D4),
`IC_WRAP = wrap` (D6). -/
def defaultConfig : Config where
  opc := OpcodeMap.standard
  lsrVariant := .arithmetic
  divRounding := .truncate
  icWrap := .wrap

/-- R5's default `IN_W`. The machine takes READ's integers unbounded (R141, log 8); the width is used by the input
port of `Machine/Ports.lean` alone. -/
def defaultInW : Nat := 32

/-- R5's default `ALU_W`. The ALU of `Machine/Alu.lean` computes in the integers (D14, log 9); the width is used by
`aluAtWidth` alone. -/
def defaultAluW : Nat := 32

end Sys2Proof.Machine
end

