-- ==== Sys2Proof/Machine/State.lean ====
section
/-! DEFINITION. The machine's state as plain data (`10_state.md` rules R10 to R23), the reasons a step can stop
without a next state, and the state after reset. -/

namespace Sys2Proof.Machine

/-- `RUN` (R20). -/
inductive RunState where
  | running
  | stopped
deriving DecidableEq, Repr

/-- The three fatal causes (`60_exceptions.md` rules R161 to R163). -/
inductive FatalCause where
  | accumulatorOverflow
  | divideByZero
  | undefinedOpcode
deriving DecidableEq, Repr

/-- The events of `46_io.md` rule R140. -/
inductive Event where
  /-- READ asks for a value. -/ | prompt
  /-- READ took the integer `v`. -/ | input (v : Int)
  /-- READ rejected the integer it took. -/ | readRangeWarning
  /-- WRTE emitted the pattern `w`. -/ | out (w : Word)
  /-- A fatal error with cause `c` (the diagnostic of R165). -/ | fatal (c : FatalCause)
deriving DecidableEq, Repr

/-- `MEM` (R18, `20_memory.md` rule R30): the words that differ from what an unlisted address reads as, each with
its address, addresses rising. A cell is a 16-bit word because R33 says that a model must not split `MEM` into
bytes (log 1). The canonical form is `Memory.wf` of `Machine/Ops.lean`. -/
abbrev Memory := List (Nat × Word)

/-- The state. The first eight fields are R10's list; `cause` is allowed by R165, `waiting` is R141's wait in
progress, `trace` is R140's event trace; `input` and `cfg` are the model's own fields for what a run takes from
outside: the terminal's integers (R141, R22) and the parameters of R5 (log 10, log 11). -/
structure State where
  /-- `ACC`, the accumulator (R11). -/
  acc : Word
  /-- `IC`, the instruction counter (R12). -/
  ic : Byte
  /-- `IR`, the instruction register (R16). -/
  ir : Word
  /-- `OPCODE`, the opcode latch (R17). -/
  opcode : Byte
  /-- `OPERAND`, the operand latch (R17). -/
  operand : Byte
  /-- `MEM`, the memory (R18). -/
  mem : Memory
  /-- `FATAL`, the fatal-error flag (R19). -/
  fatal : Bool
  /-- `RUN`, the loop state (R20). -/
  run : RunState
  /-- The cause of the fatal error, if one was raised (R165). -/
  cause : Option FatalCause
  /-- READ has prompted and waits for an integer (R71, R141). -/
  waiting : Bool
  /-- The integers the terminal has yet to hand over, next first (R141). -/
  input : List Int
  /-- The I/O event trace, oldest first (R140). -/
  trace : List Event
  /-- The parameters of R5; no step changes them. -/
  cfg : Config
deriving DecidableEq, Repr

/-- Reasons for a step to end in a fault. There are none: every run-time error the spec gives is a next state
(`60_exceptions.md` rules R160 to R166, log 3), and no access can fail (R34, R37, R72, R73). -/
inductive Fault where
deriving DecidableEq, Repr

/-- Reasons for a step to be refused. -/
inductive Refusal where
  /-- Raised by an arm of `exec` for an instruction with no meaning yet; safe. No arm raises it now. -/
  | notModelled (mnemonic : String)
  /-- Raised by `advance` when the parameter `IC_WRAP` is `fault` and the instruction counter would go from 255 to
  0: "a model-only refusal, not a `Fatal` of the machine" (R13). Safe. Never raised under the default `IC_WRAP`. -/
  | counterWraps
deriving DecidableEq, Repr

/-- Reset with parameters `cfg` and the terminal's integers `input`: the values of R23, no wait in progress and an
empty trace (R190). -/
def State.resetWith (cfg : Config) (input : List Int) : State where
  acc := 0#16
  ic := 0#8
  ir := 0#16
  opcode := 0#8
  operand := 0#8
  mem := []
  fatal := false
  run := .running
  cause := none
  waiting := false
  input := input
  trace := []
  cfg := cfg

/-- The machine right after reset (R23, R190), with R5's default parameters and no integer from the terminal yet
(log 11). -/
def State.reset : State := State.resetWith defaultConfig []

end Sys2Proof.Machine
end

