-- ==== Sys2Proof/Machine/Ops.lean ====
section
/-! DEFINITION. The named operations over memory, the registers, the trace and the run state that every meaning is
built from, with `raise Fatal` (`60_exceptions.md` rule R164) and the loop check (`40_sequencer_and_dispatch.md`
rule R81). There is no return from a fatal error to stand beside it (R170). -/

namespace Sys2Proof.Machine

/-! ### Memory (R18, R30 to R38) -/

/-- What an address with no entry reads as: 0x0000, the reset contents (R23, R38 b). -/
def Memory.unlisted : Word := 0#16

/-- The word at a cell address. -/
def Memory.lookup : Memory → Nat → Word
  | [], _ => Memory.unlisted
  | (k, w) :: rest, n => if k = n then w else Memory.lookup rest n

/-- `MemRead(a, 1)` (R8, R35). -/
def Memory.read (m : Memory) (a : Byte) : Word := Memory.lookup m a.toNat

/-- Put a word in front of the cells that follow it, unless it is the word an unlisted address reads as. -/
def Memory.consCell (n : Nat) (w : Word) (rest : Memory) : Memory :=
  if w = Memory.unlisted then rest else (n, w) :: rest

/-- The cells with the word at cell address `n` replaced by `w`, in canonical form. -/
def Memory.insert : Memory → Nat → Word → Memory
  | [], n, w => Memory.consCell n w []
  | (k, v) :: rest, n, w =>
    if n < k then Memory.consCell n w ((k, v) :: rest)
    else if n = k then Memory.consCell n w rest
    else (k, v) :: Memory.insert rest n w

/-- `MemWrite(a, 1, w)` (R8, R35): the addressed word changes and no other. -/
def Memory.write (m : Memory) (a : Byte) (w : Word) : Memory := Memory.insert m a.toNat w

/-- Every cell lies at `low` or above and below 256, addresses strictly rise, and no cell holds what an unlisted
address reads as. -/
def Memory.wfFrom : Nat → Memory → Bool
  | _, [] => true
  | low, (k, w) :: rest =>
    decide (low ≤ k) && decide (k < 256) && decide (w ≠ Memory.unlisted) && Memory.wfFrom (k + 1) rest

/-- The canonical form of memory. -/
def Memory.wf (m : Memory) : Bool := Memory.wfFrom 0 m

/-! ### Registers, memory and trace of the state -/

/-- `ACC <- w` (R79). -/
def State.setAcc (s : State) (w : Word) : State := { s with acc := w }

/-- `IC <- a` (R78). -/
def State.setIc (s : State) (a : Byte) : State := { s with ic := a }

/-- `MemWrite(a, 1, w)` on the state (R80). -/
def State.writeMem (s : State) (a : Byte) (w : Word) : State := { s with mem := Memory.write s.mem a w }

/-- `emit e` (R8, R140). -/
def State.emit (s : State) (e : Event) : State := { s with trace := s.trace ++ [e] }

/-- Fetch and decode into the latches: `IR <- MemRead(IC, 1); OPCODE <- IR[15:8]; OPERAND <- IR[7:0]`
(R72, R73). -/
def State.latch (s : State) : State :=
  { s with
    ir := Memory.read s.mem s.ic
    opcode := opcodeOf (Memory.read s.mem s.ic)
    operand := operandOf (Memory.read s.mem s.ic) }

/-- `emit Prompt`, once per READ: a READ that was left waiting has prompted already (R141). -/
def State.prompt (s : State) : State := if s.waiting then s else s.emit .prompt

/-- No integer is there: READ goes on waiting (R141, log 12). -/
def State.wait (s : State) : State := { s with waiting := true }

/-- `v <- Input(); emit In(v)` with `v` the terminal's next integer and `rest` those after it (R141, R143). The
wait, if there was one, is over. -/
def State.take (s : State) (v : Int) (rest : List Int) : State :=
  State.emit { s with waiting := false, input := rest } (.input v)

/-- `raise Fatal(c)` (R164): `FATAL <- 1; emit Fatal(c)`, and nothing else; the caller abandons the rest of the
instruction and the loop check stops the machine. The cause is kept beside `FATAL` (R165, log 16). -/
def State.raiseFatal (s : State) (c : FatalCause) : State :=
  State.emit { s with fatal := true, cause := some c } (.fatal c)

/-- The loop check (R81): STOPPED if the opcode just fetched is HALT's or `FATAL = 1`. -/
def State.loopCheck (s : State) : State :=
  if s.opcode = s.cfg.opc.halt ∨ s.fatal = true then { s with run := .stopped } else s

/-! ### Commit -/

/-- `IC <- IC + 1`, modulo 256, the last act of a completing instruction (R13, R74). Under `IC_WRAP = fault` a
step that would wrap is refused (R13, log 7). -/
def advance (s : State) : Host.Outcome State Fault Refusal :=
  if s.cfg.icWrap = .fault ∧ s.ic = 0xFF#8 then .refused .counterWraps else .next (s.setIc (s.ic + 1#8))

/-- The end of a step: the loop check follows the commit (R74 phase 8). A READ that waits has not finished its
step, so its check is still to come (R71). -/
def finish (o : Host.Outcome State Fault Refusal) : Host.Outcome State Fault Refusal :=
  match o with
  | .next t => .next (if t.waiting then t else t.loopCheck)
  | .fault r => .fault r
  | .refused r => .refused r

end Sys2Proof.Machine
end

