-- ==== Sys2Proof/Machine/Operands.lean ====
section
/-! DEFINITION. The readings of a word (`00_scope.md` rules R6 and R8) and the operand forms (`30_encoding.md` rules
R52 and R54, `45_load_store.md` rule R130). -/

namespace Sys2Proof.Machine

/-- `u16(w)` (R6): the pattern as a number 0..65535. -/
def u16 (w : Word) : Int := (w.toNat : Int)

/-- `s16(w)` (R6): the two's complement reading of the pattern. -/
def s16 (w : Word) : Int := if w.toNat < 32768 then (w.toNat : Int) else (w.toNat : Int) - 65536

/-- `pat16(v)` (R6): the low 16 bits of an integer. -/
def pat16 (v : Int) : Word := BitVec.ofInt 16 v

/-- The inclusive bounds of a signed 16-bit value (R90, R143). -/
def inRange (v : Int) : Bool := decide (-32768 ≤ v) && decide (v ≤ 32767)

/-- The effective address of an operand field: the field itself (R52, R130). -/
def effectiveAddress (a : Byte) : Byte := a

/-- The operand word `m <- MemRead(OPERAND, 1)` (R30, R74 phase 4). -/
def State.operandWord (s : State) (a : Byte) : Word := Memory.read s.mem (effectiveAddress a)

/-- The target of a branch: the operand field, absolute (R120). -/
def branchTarget (a : Byte) : Byte := a

end Sys2Proof.Machine
end

