-- ==== Sys2Proof/Machine/Flags.lean ====
section
/-! DEFINITION. The machine has no flags (`10_state.md` rule R15). What takes their place: the condition unit's three
wires (`40_sequencer_and_dispatch.md` rule R77) and the two checks of the ALU (rule R76). -/

namespace Sys2Proof.Machine

/-- `N = (s16(ACC) < 0)` (R77). -/
def condN (acc : Word) : Bool := decide (s16 acc < 0)

/-- `Z = (ACC = 0x0000)` (R77). -/
def condZ (acc : Word) : Bool := decide (acc = 0#16)

/-- `P = (s16(ACC) > 0)` (R77). -/
def condP (acc : Word) : Bool := decide (0 < s16 acc)

/-- `ovf` (R76): the exact result is no signed 16-bit value. -/
def overflows (r : Int) : Bool := !inRange r

/-- `dz` for DIV and MOD (R76): the divisor word is 0x0000. -/
def zeroDivisor (m : Word) : Bool := decide (m = 0#16)

end Sys2Proof.Machine
end

