-- ==== Sys2Proof/Machine/Alu.lean ====
section
/-! DEFINITION. The ALU block (`40_sequencer_and_dispatch.md` rule R76): twelve function codes, a 16-bit result or
one of two errors. Arithmetic is exact, in the integers (D14), and narrowed at the end. -/

namespace Sys2Proof.Machine

/-- The twelve function codes of R76. -/
inductive AluFn where
  | add | sub | mul | div | mod
  | and | orr | xor | not
  | lsr | asr | lsl
deriving DecidableEq, Repr

/-- The ALU's outputs (R76): a result pattern `y` when neither `dz` nor `ovf` is true, else the error that has
priority. -/
inductive AluResult where
  | value (y : Word)
  | fail (c : FatalCause)
deriving DecidableEq, Repr

/-- The quotient of DIV under `DIV_ROUNDING` (R96): `tdiv`, or `floor(a / b)`. -/
def quotient (rounding : DivRounding) (a b : Int) : Int :=
  match rounding with
  | .truncate => Int.tdiv a b
  | .floor => Int.fdiv a b

/-- The remainder of MOD under `DIV_ROUNDING` (R96): `a - b * q`. -/
def remainder (rounding : DivRounding) (a b : Int) : Int := a - b * quotient rounding a b

/-- `lsr1` (R111) under `LSR_VARIANT`. -/
def lsr1 (variant : LsrVariant) (w : Word) : Word :=
  match variant with
  | .arithmetic => w.extractLsb' 15 1 ++ w.extractLsb' 1 15
  | .logical => 0#1 ++ w.extractLsb' 1 15

/-- `{ACC[15], ACC[15:1]}` (R112). -/
def asr1 (w : Word) : Word := w.extractLsb' 15 1 ++ w.extractLsb' 1 15

/-- `{ACC[14:0], 0}` (R113). -/
def lsl1 (w : Word) : Word := w.extractLsb' 0 15 ++ 0#1

/-- NOT's logical negation (R104). -/
def logicalNot (w : Word) : Word := if w = 0#16 then 1#16 else 0#16

/-- The last stage of an arithmetic function (R76, R90): `pat16(r)`, unless `ovf`. -/
def narrow (r : Int) : AluResult := if overflows r then .fail .accumulatorOverflow else .value (pat16 r)

/-- `dz` before `ovf` (R76, R94, R95). -/
def checkDivisor (m : Word) (r : Int) : AluResult := if zeroDivisor m then .fail .divideByZero else narrow r

/-- The ALU (R76): `a` is `ACC`, `m` the operand word, which the last four functions do not use. -/
def alu (cfg : Config) (fn : AluFn) (a m : Word) : AluResult :=
  match fn with
  | .add => narrow (s16 a + s16 m)
  | .sub => narrow (s16 a - s16 m)
  | .mul => narrow (s16 a * s16 m)
  | .div => checkDivisor m (quotient cfg.divRounding (s16 a) (s16 m))
  | .mod => checkDivisor m (remainder cfg.divRounding (s16 a) (s16 m))
  | .and => .value (a &&& m)
  | .orr => .value (a ||| m)
  | .xor => .value (a ^^^ m)
  | .not => .value (logicalNot a)
  | .lsr => .value (lsr1 cfg.lsrVariant a)
  | .asr => .value (asr1 a)
  | .lsl => .value (lsl1 a)

/-- Commit of an ALU arm (R74 phases 6 and 7, R79): the result goes to `ACC` and the counter advances, or the fatal
error is raised and nothing else is written. -/
def commitAlu (r : AluResult) (s : State) : Host.Outcome State Fault Refusal :=
  match r with
  | .value y => advance (s.setAcc y)
  | .fail c => .next (s.raiseFatal c)

/-- An ALU arm that reads its operand word (R75, column `rd`). -/
def execAluMem (fn : AluFn) (a : Byte) (s : State) : Host.Outcome State Fault Refusal :=
  commitAlu (alu s.cfg fn s.acc (s.operandWord a)) s

/-- An ALU arm that works on `ACC` alone and reads no memory (R75). -/
def execAluAcc (fn : AluFn) (s : State) : Host.Outcome State Fault Refusal :=
  commitAlu (alu s.cfg fn s.acc 0#16) s

/-- The exact results of the five arithmetic functions as an ALU with an internal precision of `width` bits
computes them (R76, parameter `ALU_W`): the inputs are sign-extended to `width` bits (R8) and the function is that of
signed `width`-bit vectors. The machine's own ALU is `alu`; `none` for a function that is not arithmetic. -/
def exactAtWidth (width : Nat) (rounding : DivRounding) (fn : AluFn) (a m : Word) : Option Int :=
  let x : BitVec width := a.signExtend width
  let y : BitVec width := m.signExtend width
  match fn, rounding with
  | .add, _ => some (x + y).toInt
  | .sub, _ => some (x - y).toInt
  | .mul, _ => some (x * y).toInt
  | .div, .truncate => some (x.sdiv y).toInt
  | .mod, .truncate => some (x.srem y).toInt
  | .div, .floor => some ((x - x.smod y).sdiv y).toInt
  | .mod, .floor => some (x.smod y).toInt
  | _, _ => none

/-- The ALU with an internal precision of `width` bits (R76): `dz` first, then `ovf`, then the low 16 bits. -/
def aluAtWidth (width : Nat) (cfg : Config) (fn : AluFn) (a m : Word) : AluResult :=
  match exactAtWidth width cfg.divRounding fn a m with
  | none => alu cfg fn a m
  | some r => if (fn = .div ∨ fn = .mod) ∧ m = 0#16 then .fail .divideByZero else narrow r

end Sys2Proof.Machine
end

