-- ==== Sys2Proof/Machine/Arith.lean ====
section
/-! DEFINITION. The arithmetic instructions (`41_arithmetic.md`). -/

namespace Sys2Proof.Machine

/-- ADD (R91). -/
def execAdd (a : Byte) (s : State) : Host.Outcome State Fault Refusal := execAluMem .add a s

/-- SUB (R92). -/
def execSub (a : Byte) (s : State) : Host.Outcome State Fault Refusal := execAluMem .sub a s

/-- MUL (R93). -/
def execMul (a : Byte) (s : State) : Host.Outcome State Fault Refusal := execAluMem .mul a s

/-- DIV (R94). -/
def execDiv (a : Byte) (s : State) : Host.Outcome State Fault Refusal := execAluMem .div a s

/-- MOD (R95). -/
def execMod (a : Byte) (s : State) : Host.Outcome State Fault Refusal := execAluMem .mod a s

end Sys2Proof.Machine
end

