-- ==== Sys2Proof/Machine/Branch.lean ====
section
/-! DEFINITION. The branch instructions (`44_branch.md`). -/

namespace Sys2Proof.Machine

/-- A branch under a condition (R120): the target and no increment, or the increment. -/
def branchIf (taken : Bool) (a : Byte) (s : State) : Host.Outcome State Fault Refusal :=
  if taken then .next (s.setIc (branchTarget a)) else advance s

/-- B (R121). -/
def execB (a : Byte) (s : State) : Host.Outcome State Fault Refusal := branchIf true a s

/-- BNEG (R122). -/
def execBneg (a : Byte) (s : State) : Host.Outcome State Fault Refusal := branchIf (condN s.acc) a s

/-- BPOS (R123). -/
def execBpos (a : Byte) (s : State) : Host.Outcome State Fault Refusal := branchIf (condP s.acc) a s

/-- BZRO (R124). -/
def execBzro (a : Byte) (s : State) : Host.Outcome State Fault Refusal := branchIf (condZ s.acc) a s

end Sys2Proof.Machine
end

