-- ==== Sys2Proof/Machine/Io.lean ====
section
/-! DEFINITION. READ and WRTE (`46_io.md`). -/

namespace Sys2Proof.Machine

/-- The end of a READ that has taken `v` (R143): in range, the store and the increment; otherwise the warning, and
`MEM`, `ACC` and `IC` unchanged. -/
def readAccept (a : Byte) (v : Int) (s : State) : Host.Outcome State Fault Refusal :=
  if inRange v then advance (s.writeMem (effectiveAddress a) (pat16 v)) else .next (s.emit .readRangeWarning)

/-- READ (R143): prompt, take the terminal's next integer, judge it. While the terminal has none the machine waits
and no state of R10 changes (R141, log 12). -/
def execRead (a : Byte) (s : State) : Host.Outcome State Fault Refusal :=
  match s.input with
  | [] => .next s.prompt.wait
  | v :: rest => readAccept a v (s.prompt.take v rest)

/-- WRTE (R144). -/
def execWrte (a : Byte) (s : State) : Host.Outcome State Fault Refusal := advance (s.emit (.out (s.operandWord a)))

end Sys2Proof.Machine
end

