-- ==== Sys2Proof/Machine/LoadStore.lean ====
section
/-! DEFINITION. LOAD and STOR (`45_load_store.md`). -/

namespace Sys2Proof.Machine

/-- LOAD (R131). -/
def execLoad (a : Byte) (s : State) : Host.Outcome State Fault Refusal := advance (s.setAcc (s.operandWord a))

/-- STOR (R132). -/
def execStor (a : Byte) (s : State) : Host.Outcome State Fault Refusal :=
  advance (s.writeMem (effectiveAddress a) s.acc)

end Sys2Proof.Machine
end

