-- ==== Sys2Proof/Machine/Logic.lean ====
section
/-! DEFINITION. The logic instructions (`42_logic.md`). -/

namespace Sys2Proof.Machine

/-- AND (R101). -/
def execAnd (a : Byte) (s : State) : Host.Outcome State Fault Refusal := execAluMem .and a s

/-- ORR (R102). -/
def execOrr (a : Byte) (s : State) : Host.Outcome State Fault Refusal := execAluMem .orr a s

/-- XOR (R103). -/
def execXor (a : Byte) (s : State) : Host.Outcome State Fault Refusal := execAluMem .xor a s

/-- NOT (R104), the logical negation; the operand field is ignored (R54). -/
def execNot (_a : Byte) (s : State) : Host.Outcome State Fault Refusal := execAluAcc .not s

end Sys2Proof.Machine
end

