-- ==== Sys2Proof/Machine/Shift.lean ====
section
/-! DEFINITION. The shift instructions (`43_shift.md`): one bit, no check, the operand field ignored (R54, R110). -/

namespace Sys2Proof.Machine

/-- LSR (R111), under `LSR_VARIANT`. -/
def execLsr (_a : Byte) (s : State) : Host.Outcome State Fault Refusal := execAluAcc .lsr s

/-- ASR (R112). -/
def execAsr (_a : Byte) (s : State) : Host.Outcome State Fault Refusal := execAluAcc .asr s

/-- LSL (R113). -/
def execLsl (_a : Byte) (s : State) : Host.Outcome State Fault Refusal := execAluAcc .lsl s

end Sys2Proof.Machine
end

