-- ==== Sys2Proof/Machine/System.lean ====
section
/-! DEFINITION. HALT and the UNDEFINED arm (`47_halt_undefined.md`). -/

namespace Sys2Proof.Machine

/-- HALT (R150): the instruction writes nothing; the loop check of the step stops the machine. The operand field is
ignored (R54). -/
def execHalt (_a : Byte) (s : State) : Host.Outcome State Fault Refusal := .next s

/-- The arm UNDEFINED (R151): `raise Fatal(UNDEFINED_OPCODE)`. -/
def execUndefined (s : State) : Host.Outcome State Fault Refusal := .next (s.raiseFatal .undefinedOpcode)

end Sys2Proof.Machine
end

