-- ==== Sys2Proof/Machine/Dispatch.lean ====
section
/-! DEFINITION. The executor's cases: one arm per instruction (`40_sequencer_and_dispatch.md` rules R75 and R82). The
22nd arm of R75, UNDEFINED, is no instruction: `step` takes it where `decode` finds none. -/

namespace Sys2Proof.Machine

def exec (i : Instr) (s : State) : Host.Outcome State Fault Refusal :=
  match i with
  -- arithmetic (41_arithmetic.md)
  | .add a => Sys2Proof.Machine.execAdd a s
  | .sub a => Sys2Proof.Machine.execSub a s
  | .mul a => Sys2Proof.Machine.execMul a s
  | .div a => Sys2Proof.Machine.execDiv a s
  | .mod a => Sys2Proof.Machine.execMod a s
  -- logic (42_logic.md)
  | .and a => Sys2Proof.Machine.execAnd a s
  | .orr a => Sys2Proof.Machine.execOrr a s
  | .xor a => Sys2Proof.Machine.execXor a s
  | .not a => Sys2Proof.Machine.execNot a s
  -- shifts (43_shift.md)
  | .lsr a => Sys2Proof.Machine.execLsr a s
  | .asr a => Sys2Proof.Machine.execAsr a s
  | .lsl a => Sys2Proof.Machine.execLsl a s
  -- branches (44_branch.md)
  | .b a => Sys2Proof.Machine.execB a s
  | .bneg a => Sys2Proof.Machine.execBneg a s
  | .bpos a => Sys2Proof.Machine.execBpos a s
  | .bzro a => Sys2Proof.Machine.execBzro a s
  -- load and store (45_load_store.md)
  | .load a => Sys2Proof.Machine.execLoad a s
  | .stor a => Sys2Proof.Machine.execStor a s
  -- terminal (46_io.md)
  | .read a => Sys2Proof.Machine.execRead a s
  | .wrte a => Sys2Proof.Machine.execWrte a s
  -- system (47_halt_undefined.md)
  | .halt a => Sys2Proof.Machine.execHalt a s

end Sys2Proof.Machine
end

