-- ==== Sys2Proof/Machine/Sequencer.lean ====
section
/-! DEFINITION. The execution loop's pieces around `exec` (`40_sequencer_and_dispatch.md` rules R71 to R75 and R82):
what `step` calls, and the placing of a word where the next step fetches it. -/

namespace Sys2Proof.Machine

/-- R75's mux over all 22 arms, on what the fetched word decodes to. -/
def dispatch (d : Decoded) (s : State) : Host.Outcome State Fault Refusal :=
  match d with
  | .instr i => exec i s
  | .undefined _ _ => execUndefined s

/-- One pass of the loop from its fetch (R72 to R74, R82), up to the loop check. -/
def fetchAndExecute (s : State) : Host.Outcome State Fault Refusal := dispatch (decode s.cfg.opc s.latch.ir) s.latch

/-- The rest of a pass that was left waiting inside READ: the same READ goes on, with the operand its fetch latched;
nothing is fetched (R71, R141, log 12, log 26). -/
def resumeRead (s : State) : Host.Outcome State Fault Refusal := exec (.read s.operand) s

/-- One step of the core (R82, R83). RUNNING: one pass of the loop with its loop check, or the rest of the pass that
waits. STOPPED: the core takes no step and no item of state changes (R83, log 13). -/
def coreStep (s : State) : Host.Outcome State Fault Refusal :=
  match s.run with
  | .stopped => .next s
  | .running => finish (if s.waiting then resumeRead s else fetchAndExecute s)

/-- `s` with the low `nbits` bits of `w` stored as the word at `IC`, and the core about to fetch: RUNNING and not
inside a READ (log 21). -/
def placeAtFetch (s : State) (nbits w : Nat) : State :=
  { s with
    mem := Memory.write s.mem s.ic (BitVec.ofNat 16 (w % 2 ^ nbits))
    run := .running
    waiting := false }

end Sys2Proof.Machine
end

