-- ==== Sys2Proof/Machine/Step.lean ====
section
/-! DEFINITION. The step function under its fixed names (`40_sequencer_and_dispatch.md` rule R82); its parts stand in
`Machine/Sequencer.lean`. -/

namespace Sys2Proof.Machine

/-- One step of the core (R82, R83). -/
def step (s : State) : Host.Outcome State Fault Refusal := coreStep s

/-- `s` with the instruction whose low `nbits` bits are those of `w` where `step` fetches next (log 21). -/
def State.withFetchWord (s : State) (nbits w : Nat) : State := placeAtFetch s nbits w

end Sys2Proof.Machine
end

