-- ==== Sys2Proof/Machine/Datapath.lean ====
section
/-! DEFINITION. The machine a second time, as the four hardware blocks of `40_sequencer_and_dispatch.md`: the dispatch
mux's control table (rule R75) as data, and the datapath it drives (rules R74, R76, R78, R79, R80). `step` is not built
from it; `exec` follows the step function of rule R82, and the two are to agree. -/

namespace Sys2Proof.Machine

/-- Column `acc` of R75: what is written to `ACC` on commit (R79). -/
inductive AccSelect where
  | keep
  | aluResult
  | operandWord
deriving DecidableEq, Repr

/-- Column `mem` of R75: what is written to `MEM[OPERAND]` on commit (R80). -/
inductive MemSelect where
  | keep
  | accumulator
  | inputValue
deriving DecidableEq, Repr

/-- Column `ic` of R75: the next-counter select (R78). The three conditional selects fall back to `inc`. -/
inductive CounterSelect where
  | inc
  | target
  | hold
  | targetIfN
  | targetIfP
  | targetIfZ
deriving DecidableEq, Repr

/-- Column `io` of R75. -/
inductive PortActivity where
  | silent
  | input
  | output
deriving DecidableEq, Repr

/-- Column `chk` of R75: the check that can stop the commit. `alu` stands for the ALU's own `dz` and `ovf`. -/
inductive CommitCheck where
  | free
  | alu
  | inputRange
  | alwaysFatal
deriving DecidableEq, Repr

/-- One row of R75's table. -/
structure Control where
  rd : Bool
  alu : Option AluFn
  acc : AccSelect
  mem : MemSelect
  ic : CounterSelect
  io : PortActivity
  chk : CommitCheck
deriving DecidableEq, Repr

/-- The row of an ALU arm. -/
def aluRow (rd : Bool) (fn : AluFn) (chk : CommitCheck) : Control :=
  ⟨rd, some fn, .aluResult, .keep, .inc, .silent, chk⟩

/-- The row of a branch. -/
def branchRow (ic : CounterSelect) : Control := ⟨false, none, .keep, .keep, ic, .silent, .free⟩

/-- The dispatch mux (R75): the 21 mnemonics, and `none` for UNDEFINED. -/
def controlRow : Option Mnemonic → Control
  | some .add => aluRow true .add .alu
  | some .sub => aluRow true .sub .alu
  | some .mul => aluRow true .mul .alu
  | some .div => aluRow true .div .alu
  | some .mod => aluRow true .mod .alu
  | some .and => aluRow true .and .free
  | some .orr => aluRow true .orr .free
  | some .xor => aluRow true .xor .free
  | some .not => aluRow false .not .free
  | some .lsr => aluRow false .lsr .free
  | some .asr => aluRow false .asr .free
  | some .lsl => aluRow false .lsl .free
  | some .b => branchRow .target
  | some .bneg => branchRow .targetIfN
  | some .bpos => branchRow .targetIfP
  | some .bzro => branchRow .targetIfZ
  | some .load => ⟨true, none, .operandWord, .keep, .inc, .silent, .free⟩
  | some .stor => ⟨false, none, .keep, .accumulator, .inc, .silent, .free⟩
  | some .read => ⟨false, none, .keep, .inputValue, .inc, .input, .inputRange⟩
  | some .wrte => ⟨true, none, .keep, .keep, .inc, .output, .free⟩
  | some .halt => branchRow .hold
  | none => ⟨false, none, .keep, .keep, .hold, .silent, .alwaysFatal⟩

/-- The counter mux (R78), or no value where `IC_WRAP = fault` refuses the increment (R13). -/
def nextCounter (sel : CounterSelect) (a : Byte) (s : State) : Option Byte :=
  let inc : Option Byte := if s.cfg.icWrap = .fault ∧ s.ic = 0xFF#8 then none else some (s.ic + 1#8)
  match sel with
  | .inc => inc
  | .target => some a
  | .hold => some s.ic
  | .targetIfN => if condN s.acc then some a else inc
  | .targetIfP => if condP s.acc then some a else inc
  | .targetIfZ => if condZ s.acc then some a else inc

/-- Accumulator write (R79): `ACC` after the commit, `m` the operand word and `y` the ALU's result. -/
def nextAcc (sel : AccSelect) (m y : Word) (s : State) : Word :=
  match sel with
  | .keep => s.acc
  | .aluResult => y
  | .operandWord => m

/-- Memory write (R80): `MEM` after the commit, `v` the terminal's integer. -/
def nextMem (sel : MemSelect) (a : Byte) (v : Int) (s : State) : Memory :=
  match sel with
  | .keep => s.mem
  | .accumulator => Memory.write s.mem a s.acc
  | .inputValue => Memory.write s.mem a (pat16 v)

/-- Commit (R74 phase 7, R78 to R80): the writes of a row, all together. -/
def commitRow (c : Control) (a : Byte) (m y : Word) (v : Int) (s : State) : Host.Outcome State Fault Refusal :=
  match nextCounter c.ic a s with
  | none => .refused .counterWraps
  | some ic => .next { s with ic := ic, acc := nextAcc c.acc m y s, mem := nextMem c.mem a v s }

/-- Checks and commit (R74 phases 6 and 7), with the ALU's result and the terminal's integer at hand. -/
def checkAndCommit (c : Control) (a : Byte) (m : Word) (y : AluResult) (v : Int) (s : State) :
    Host.Outcome State Fault Refusal :=
  match c.chk, y with
  | .alwaysFatal, _ => .next (s.raiseFatal .undefinedOpcode)
  | .alu, .fail cause => .next (s.raiseFatal cause)
  | .inputRange, _ => if inRange v then commitRow c a m 0#16 v s else .next (s.emit .readRangeWarning)
  | _, .value y => commitRow c a m y v s
  | .free, .fail _ => commitRow c a m 0#16 v s

/-- The datapath under one row of control signals (R74): operand read, compute or port exchange, checks, commit. -/
def datapath (c : Control) (a : Byte) (s : State) : Host.Outcome State Fault Refusal :=
  let m : Word := if c.rd then Memory.read s.mem a else 0#16
  let y : AluResult := match c.alu with
    | some fn => alu s.cfg fn s.acc m
    | none => .value 0#16
  match c.io, s.input with
  | .silent, _ => checkAndCommit c a m y 0 s
  | .output, _ => checkAndCommit c a m y 0 (s.emit (.out m))
  | .input, [] => .next s.prompt.wait
  | .input, v :: rest => checkAndCommit c a m y v (s.prompt.take v rest)

/-- The pass of the loop as the blocks perform it: latch, mux, datapath (R70, R74). -/
def blocksExecute (s : State) : Host.Outcome State Fault Refusal :=
  datapath (controlRow (mnemonicOf s.cfg.opc s.latch.opcode)) s.latch.operand s.latch

end Sys2Proof.Machine
end

