-- ==== Sys2Proof/Machine/Ports.lean ====
section
/-! DEFINITION. What the outside agents of `70_reset_and_hazards.md` rule R192 do to the core and get from it: the
loader and launch (R193, R194), reset (R190), the terminal's input (R141), the reporter (R84), and the ports of
`40_sequencer_and_dispatch.md` rule R86 as functions of the state. None of this acts inside a step. -/

namespace Sys2Proof.Machine

/-! ### Loader, launch and reset -/

/-- The loader writes one word (R193). -/
def loadWord (s : State) (p : Nat × Nat) : State :=
  s.writeMem (BitVec.ofNat 8 p.1) (BitVec.ofNat 16 p.2)

/-- The loader writes its words in the order given; it writes nothing but `MEM` (R193). -/
def loadImage (img : RawImage) (s : State) : State := img.foldl loadWord s

/-- The launch state (R194): the reset state with the loader's image, and the terminal's integers of the run. A
failed load launches nothing (R167). -/
def launch (cfg : Config) (img : RawImage) (input : List Int) : Option State :=
  if RawImage.wf img then some (loadImage img (State.resetWith cfg input)) else none

/-- Reset is asserted (R190). The parameters are the machine's, and the integers not yet taken are the terminal's
(R22): neither is state of R10, and both stay (log 22). -/
def assertReset (s : State) : State := State.resetWith s.cfg s.input

/-! ### Terminal, input side -/

/-- The terminal supplies one integer to the READ that waits, and has no move otherwise (R192: "one integer per
waiting READ"; "supply a value when no READ waits" is assumed never). A READ to which an integer was supplied no longer
lacks one, so it is supplied no second. The integers of R141's input sequence that a run was launched with are not
supplied by this move: they stand in `input` from the launch (log 11). -/
def supply (v : Int) (s : State) : Option State :=
  if s.run = .running ∧ s.waiting = true ∧ s.input = [] then some { s with input := [v] } else none

/-- The integer on an input port of `width` bits, read as signed (R86 `in_data`, R141). -/
def portInteger (width : Nat) (data : BitVec width) : Int := data.toInt

/-! ### Status, reporter and output ports -/

/-- The run's status (R20). -/
inductive Status where
  | running
  | haltedNormally
  | haltedFatally
deriving DecidableEq, Repr

/-- The status from the pair `(RUN, FATAL)` (R20). The pair `(RUNNING, 1)` never occurs. -/
def status (s : State) : Status :=
  match s.run, s.fatal with
  | .running, _ => .running
  | .stopped, false => .haltedNormally
  | .stopped, true => .haltedFatally

/-- What the reporter reads (R84): the registers, all 256 words of memory, and the status. -/
structure Report where
  acc : Word
  ic : Byte
  ir : Word
  opcode : Byte
  operand : Byte
  memory : List Word
  status : Status
  cause : Option FatalCause
deriving DecidableEq, Repr

/-- The reporter's read (R84): after the loop has stopped, and only then. -/
def observe (s : State) : Option Report :=
  match s.run with
  | .running => none
  | .stopped =>
    some
      { acc := s.acc
        ic := s.ic
        ir := s.ir
        opcode := s.opcode
        operand := s.operand
        memory := (List.range 256).map (Memory.lookup s.mem)
        status := status s
        cause := s.cause }

/-- Cause codes on `fatal_cause` (R165). -/
def causeCode : Option FatalCause → BitVec 2
  | none => 0#2
  | some .accumulatorOverflow => 1#2
  | some .divideByZero => 2#2
  | some .undefinedOpcode => 3#2

/-- The output ports of R86 that are levels. -/
structure Levels where
  inReq : Bool
  stopped : Bool
  fatal : Bool
  fatalCause : BitVec 2
  obsAcc : Word
  obsIc : Byte
  obsIr : Word
  obsOpcode : Byte
  obsOperand : Byte
deriving DecidableEq, Repr

/-- The levels of R86 in a state. DESIGN CHOICE (log 29): `inReq` is a level between steps, so it shows a READ that waits
for its integer; a READ whose integer is at hand prompts and ends within one step, and no state shows its request:
`inReqDuring` does. -/
def levels (s : State) : Levels where
  inReq := s.waiting
  stopped := decide (s.run = .stopped)
  fatal := s.fatal
  fatalCause := causeCode s.cause
  obsAcc := s.acc
  obsIc := s.ic
  obsIr := s.ir
  obsOpcode := s.opcode
  obsOperand := s.operand

/-- The reporter's read port `obs_addr`, `obs_data` of R86, honoured only when STOPPED. -/
def obsData (s : State) (obsAddr : Byte) : Option Word :=
  match s.run with
  | .running => none
  | .stopped => some (Memory.read s.mem obsAddr)

/-- The events a step added to the trace. -/
def newEvents (before after : State) : List Event := after.trace.drop before.trace.length

/-- `in_req` of R86 over the step from `before` to `after`: it was asserted at some time in the step, because a READ
was waiting or prompted in it. That a READ whose integer is at hand asserts it within its one step is a DESIGN CHOICE
(log 29). -/
def inReqDuring (before after : State) : Bool := before.waiting || (newEvents before after).contains .prompt

/-- `in_warn` of R86: the step from `before` to `after` rejected an integer. -/
def inWarn (before after : State) : Bool := (newEvents before after).contains .readRangeWarning

/-- `out_valid` and `out_data` of R86: the word the step from `before` to `after` emitted, if it emitted one. -/
def outWord (before after : State) : Option Word :=
  (newEvents before after).findSome? fun e =>
    match e with
    | .out w => some w
    | _ => none

end Sys2Proof.Machine
end

