-- ==== Sys2Proof/Safety.lean ====
section
/-! DEFINITION. The terms claims are stated in: the invariants of `10_state.md` rule R24, reachability under every
outside agent of `70_reset_and_hazards.md` rule R192, the conditions on an operand or the counter that the rules
name, and what a safe run is. -/

namespace Sys2Proof.Machine

/-- The increment has a meaning: it does not wrap, or `IC_WRAP = wrap` (R13). -/
abbrev CanAdvance (s : State) : Prop := s.cfg.icWrap = .wrap ∨ s.ic ≠ 0xFF#8

/-- A signed 16-bit value (R90): in [-32768, 32767]. -/
abbrev InRange (r : Int) : Prop := -32768 ≤ r ∧ r ≤ 32767

/-- The core is about to fetch: RUNNING, and not inside a READ that waits. -/
abbrev AboutToFetch (s : State) : Prop := s.run = .running ∧ s.waiting = false

/-- The state a fatal error of cause `c` leaves before the loop check (R164): nothing but `FATAL`, the cause and the
diagnostic differ from `s`. -/
def fatalState (c : FatalCause) (s : State) : State :=
  { s with fatal := true, cause := some c, trace := s.trace ++ [.fatal c] }

/-- What the fetch and the decode of a step leave (R72, R73). -/
def fetched (s : State) : State :=
  { s with
    ir := Memory.read s.mem s.ic
    opcode := opcodeOf (Memory.read s.mem s.ic)
    operand := operandOf (Memory.read s.mem s.ic) }

/-- The word of `i` is `{code, operand}` under every opcode map, `code` being the map's number for it, and its high
half is `n` under the default map (R51, R56, R57). -/
def EncodesAs (i : Instr) (code : OpcodeMap → Byte) (n : Byte) : Prop :=
  (∀ opc, encode opc i = wordOf (code opc) i.operand) ∧ encode OpcodeMap.standard i = wordOf n i.operand

/-- The invariants of the machine, after R24 and the rules named at each. -/
structure MachineInv (s : State) : Prop where
  /-- Memory keeps its canonical form; its addresses are those of the 256 words (R18, R24 a). -/
  memoryWf : Memory.wf s.mem = true
  /-- `OPCODE` and `OPERAND` are the halves of `IR` (R17, R24 b). -/
  halves : s.opcode = opcodeOf s.ir ∧ s.operand = operandOf s.ir
  /-- `FATAL = 1` implies `RUN = STOPPED` (R24 d). -/
  fatalStops : s.fatal = true → s.run = .stopped
  /-- Only HALT and the fatal errors stop the loop (R20). -/
  stopReason : s.run = .stopped → s.fatal = true ∨ s.opcode = s.cfg.opc.halt
  /-- The cause is kept exactly while `FATAL = 1` (R165). -/
  causeKept : s.fatal = s.cause.isSome
  /-- The cause is that of the trace's last event (R140, R165). -/
  causeTraced : ∀ c, s.cause = some c → s.trace.getLast? = some (.fatal c)
  /-- Without a fatal error the trace shows none (R140). -/
  noFatalTraced : s.fatal = false → ∀ c, Event.fatal c ∉ s.trace
  /-- The core waits only inside a READ it has fetched, prompted for and not finished (R71, R141). -/
  waitsInRead : s.waiting = true →
    s.run = .running ∧ s.opcode = s.cfg.opc.read ∧ s.ir = Memory.read s.mem s.ic ∧ s.trace.getLast? = some .prompt

/-- The states a run can reach under any behaviour of the agents of R192: from a launch state (R194), by steps of
the core, integers from the terminal to a READ that waits, and reset at any time. -/
inductive Reachable : State → Prop where
  | launch {cfg : Config} {img : RawImage} {input : List Int} {s : State} :
      Machine.launch cfg img input = some s → Reachable s
  | step {s t : State} : Reachable s → Machine.step s = .next t → Reachable t
  | supply {s t : State} {v : Int} : Reachable s → Machine.supply v s = some t → Reachable t
  | reset {s : State} : Reachable s → Reachable (assertReset s)

/-- A run is safe as long as no fatal error has been raised (R160, R164). -/
def Safe (s : State) : Prop := s.fatal = false

end Sys2Proof.Machine

namespace Sys2Proof

/-- The instructions that can end a run with ACCUMULATOR_OVERFLOW or DIVIDE_BY_ZERO (R161, R162). -/
def Instr.isArithmetic : Instr → Bool
  | .add _ | .sub _ | .mul _ | .div _ | .mod _ => true
  | .and _ | .orr _ | .xor _ | .not _ | .lsr _ | .asr _ | .lsl _ | .b _ | .bneg _ | .bpos _ | .bzro _
  | .load _ | .stor _ | .read _ | .wrte _ | .halt _ => false

/-- R10, column "written by" of `ACC`. -/
def Instr.writesAcc : Instr → Bool
  | .add _ | .sub _ | .mul _ | .div _ | .mod _ | .and _ | .orr _ | .xor _ | .not _ | .lsr _ | .asr _ | .lsl _
  | .load _ => true
  | .b _ | .bneg _ | .bpos _ | .bzro _ | .stor _ | .read _ | .wrte _ | .halt _ => false

/-- R10, column "written by" of `MEM`. -/
def Instr.writesMem : Instr → Bool
  | .stor _ | .read _ => true
  | .add _ | .sub _ | .mul _ | .div _ | .mod _ | .and _ | .orr _ | .xor _ | .not _ | .lsr _ | .asr _ | .lsl _
  | .load _ | .b _ | .bneg _ | .bpos _ | .bzro _ | .wrte _ | .halt _ => false

end Sys2Proof
end

