-- ==== Sys2Proof/Certificates/Slice0/Obligations.lean ====
section
/-! DEFINITION. The statements for the provers. Each docstring names the rule of spec/ it formalises. Where a
statement rests on a choice of the model, or on a decision the spec marks as its own (D<n> of `92_eei_decisions.md`),
its docstring names it and the entry of the assumption log. In every statement on an instruction the number in
`EncodesAs` is that of R56's default table, which is the spec's own (D2, log 4). -/

open Sys2Proof Sys2Proof.Machine

/-! ### Reset, launch, encoding -/

/-- R23: every field at its reset value; those of `IR`, `OPCODE`, `OPERAND` are the spec's own (D9, log 14), and they
cannot be observed. -/
def Obligations.ResetStateValues : Prop :=
  State.reset.acc = 0#16 ∧ State.reset.ic = 0#8 ∧ (∀ a, Memory.read State.reset.mem a = 0#16) ∧
    State.reset.fatal = false ∧ State.reset.run = .running ∧ State.reset.ir = 0#16 ∧
    State.reset.opcode = 0#8 ∧ State.reset.operand = 0#8 ∧
    ∀ w x y, step { State.reset with ir := w, opcode := x, operand := y } = step State.reset

/-- R24, R140, R165, R190: the invariants hold at reset. -/
def Obligations.ResetMeetsInvariants : Prop := MachineInv State.reset

/-- R190: reset, from whatever state, leaves the values of R23, no wait and an empty trace. That the parameters and
the terminal's integers stay is the model's choice (log 22). -/
def Obligations.AssertedResetRestoresState : Prop :=
  ∀ s : State,
    (assertReset s).acc = 0#16 ∧ (assertReset s).ic = 0#8 ∧ (∀ a, Memory.read (assertReset s).mem a = 0#16) ∧
      (assertReset s).fatal = false ∧ (assertReset s).cause = none ∧ (assertReset s).run = .running ∧
      (assertReset s).ir = 0#16 ∧ (assertReset s).opcode = 0#8 ∧ (assertReset s).operand = 0#8 ∧
      (assertReset s).waiting = false ∧ (assertReset s).trace = [] ∧ (assertReset s).cfg = s.cfg ∧
      (assertReset s).input = s.input

/-- R193, R194, R167: a valid image launches, an invalid one does not; the launch state is the reset state but for
`MEM`, and a word of `MEM` is the last the loader wrote there (log 23), or 0x0000 if it wrote none. -/
def Obligations.LaunchHoldsTheImage : Prop :=
  ∀ (cfg : Config) (img : RawImage) (input : List Int),
    (launch cfg img input = none ↔ RawImage.wf img = false) ∧
      ∀ s, launch cfg img input = some s →
        s = { State.resetWith cfg input with mem := s.mem } ∧ Memory.wf s.mem = true ∧
          ∀ a : Byte, Memory.read s.mem a =
            match (img.filter fun p => p.1 = a.toNat).getLast? with
            | some p => BitVec.ofNat 16 p.2
            | none => 0#16

/-- R59, R151: with nothing loaded and the default parameters the first step fetches 0x0000, which is undefined, and
ends the run (default numbers: D2, log 4; the one run from reset: log 21). -/
def Obligations.EmptyMemoryEndsUndefined : Prop :=
  step State.reset =
    .next { State.reset with
      fatal := true, run := .stopped, cause := some .undefinedOpcode, trace := [.fatal .undefinedOpcode] }

/-- R51, R53: the two halves of a word as shift and mask, as quotient and remainder, and the word put together again;
decoding answers for every word. -/
def Obligations.DecoderSplitsTheWord : Prop :=
  ∀ w : Word,
    (opcodeOf w).toNat = (w >>> 8).toNat ∧ (operandOf w).toNat = (w &&& 0x00FF#16).toNat ∧
      (opcodeOf w).toNat = w.toNat / 256 ∧ (operandOf w).toNat = w.toNat % 256 ∧
      w.toNat = (opcodeOf w).toNat * 256 + (operandOf w).toNat ∧ wordOf (opcodeOf w) (operandOf w) = w ∧
      ∀ opc, (∃ i, decode opc w = .instr i ∧ i.operand = operandOf w) ∨
        decode opc w = .undefined (opcodeOf w) (operandOf w)

/-- R56, R57, R59: words written out bit by bit from R51 and R56, one of each family, and undefined ones. -/
def Obligations.WordsDecodeAsWritten : Prop :=
  decode OpcodeMap.standard 0b0011000000001011#16 = .instr (.add 0x0B#8) ∧
    decode OpcodeMap.standard 0b0100001110100101#16 = .instr (.not 0xA5#8) ∧
    decode OpcodeMap.standard 0b0101001000000000#16 = .instr (.lsl 0x00#8) ∧
    decode OpcodeMap.standard 0b0110000011111111#16 = .instr (.b 0xFF#8) ∧
    decode OpcodeMap.standard 0b0010000101000010#16 = .instr (.stor 0x42#8) ∧
    decode OpcodeMap.standard 0b0001000100010010#16 = .instr (.wrte 0x12#8) ∧
    decode OpcodeMap.standard 0b1111111111111111#16 = .instr (.halt 0xFF#8) ∧
    decode OpcodeMap.standard 0b1001100100000000#16 = .undefined 0x99#8 0x00#8 ∧
    decode OpcodeMap.standard 0b0011010100000000#16 = .undefined 0x35#8 0x00#8 ∧
    decode OpcodeMap.standard 0b0000000000000000#16 = .undefined 0x00#8 0x00#8

/-- R57, R58: under every opcode map R5 admits, the encoding is `OPC(m) * 256 + a`, decoding inverts it both ways,
and a word is UNDEFINED exactly when its opcode is in no mnemonic's number. -/
def Obligations.DecodeInvertsEncode : Prop :=
  ∀ opc : OpcodeMap, opc.wf = true →
    (∀ i, (encode opc i).toNat = (opc.code i.mnemonic).toNat * 256 + i.operand.toNat) ∧
      (∀ i, decode opc (encode opc i) = .instr i) ∧
      (∀ w i, decode opc w = .instr i → encode opc i = w) ∧
      ∀ w x y, decode opc w = .undefined x y ↔
        ((∀ m, opc.code m ≠ opcodeOf w) ∧ x = opcodeOf w ∧ y = operandOf w)

/-- R57, R58: 235 opcode values and 60160 words are undefined, under every opcode map R5 admits. -/
def Obligations.UndefinedEncodingsCounted : Prop :=
  ∀ opc : OpcodeMap, opc.wf = true →
    (Finset.univ.filter fun x : Fin 256 => mnemonicOf opc (BitVec.ofFin x) = none).card = 235 ∧
      (Finset.univ.filter fun n : Fin 65536 => mnemonicOf opc (opcodeOf (BitVec.ofFin n)) = none).card = 60160

/-! ### The step -/

/-- R71 to R74, R81, R82: when the word at `IC` decodes to an instruction, the step is that instruction on the state
the fetch and decode leave, and then the loop check. That a READ left waiting skips the loop check is the model's
choice (log 12). -/
def Obligations.StepRunsDecodedInstruction : Prop :=
  ∀ (s : State) (i : Instr), AboutToFetch s → decode s.cfg.opc (Memory.read s.mem s.ic) = .instr i →
    step s =
      match exec i (fetched s) with
      | .next t =>
        .next (if t.waiting then t
          else if t.opcode = t.cfg.opc.halt ∨ t.fatal = true then { t with run := .stopped } else t)
      | .fault r => .fault r
      | .refused r => .refused r

/-- R13: below address 255 the counter goes up by one; at 255, under the default `IC_WRAP = wrap`, an instruction that
completes leaves `IC = 0` and no fault, flag or event marks it. That the wrap is the default is the spec's own decision
(D6, C2; log 7). -/
def Obligations.CounterWrapsSilently : Prop :=
  State.reset.cfg.icWrap = .wrap ∧
    ∀ (i : Instr) (s : State),
      i.mnemonic ∈ [Mnemonic.and, .orr, .xor, .not, .lsr, .asr, .lsl, .load, .stor, .wrte] →
      (s.ic ≠ 0xFF#8 → ∃ t, exec i s = .next t ∧ t.ic.toNat = s.ic.toNat + 1) ∧
        (s.ic = 0xFF#8 → s.cfg.icWrap = .wrap →
          ∃ t, exec i s = .next t ∧ t.ic = 0#8 ∧ t.fatal = s.fatal ∧ t.cause = s.cause ∧ t.run = s.run ∧
            (t.trace = s.trace ∨ ∃ w, i.mnemonic = .wrte ∧ t.trace = s.trace ++ [.out w]))

/-- R13 with `IC_WRAP = fault` (D6, log 7): at address 255 the model refuses an instruction exactly where it would
increment the counter, that is where it completes without jumping; and it refuses nothing else. -/
def Obligations.WrapRefusedWhereCounterWouldAdvance : Prop :=
  ∀ (i : Instr) (s : State),
    (s.cfg.icWrap = .fault → s.ic = 0xFF#8 →
      (exec i s = .refused .counterWraps ↔
        match i with
        | .add a => InRange (s16 s.acc + s16 (Memory.read s.mem a))
        | .sub a => InRange (s16 s.acc - s16 (Memory.read s.mem a))
        | .mul a => InRange (s16 s.acc * s16 (Memory.read s.mem a))
        | .div a => Memory.read s.mem a ≠ 0#16 ∧ ¬(s16 s.acc = -32768 ∧ s16 (Memory.read s.mem a) = -1)
        | .mod a => Memory.read s.mem a ≠ 0#16
        | .bneg _ => 0 ≤ s16 s.acc
        | .bpos _ => s16 s.acc ≤ 0
        | .bzro _ => s16 s.acc ≠ 0
        | .read _ => ∃ v rest, s.input = v :: rest ∧ InRange v
        | .b _ | .halt _ => False
        | .and _ | .orr _ | .xor _ | .not _ | .lsr _ | .asr _ | .lsl _ | .load _ | .stor _ | .wrte _ => True)) ∧
      ∀ r, exec i s = .refused r → r = .counterWraps ∧ s.cfg.icWrap = .fault ∧ s.ic = 0xFF#8

/-- R14: `IC` after a step that has finished, instruction by instruction and outcome by outcome. That `IC` stays after
a fatal error is the spec's own decision (D5, log 17). -/
def Obligations.CounterAfterEachInstruction : Prop :=
  ∀ s t : State, AboutToFetch s → s.fatal = false → step s = .next t → t.waiting = false →
    (t.fatal = true → t.ic = s.ic) ∧
      (∀ x y, decode s.cfg.opc (Memory.read s.mem s.ic) = .undefined x y → t.ic = s.ic) ∧
      ∀ i, decode s.cfg.opc (Memory.read s.mem s.ic) = .instr i → t.fatal = false →
        match i with
        | .b a => t.ic = a
        | .bneg a => t.ic = if s16 s.acc < 0 then a else s.ic + 1#8
        | .bpos a => t.ic = if 0 < s16 s.acc then a else s.ic + 1#8
        | .bzro a => t.ic = if s16 s.acc = 0 then a else s.ic + 1#8
        | .read _ => ∀ v rest, s.input = v :: rest →
            t.ic = if -32768 ≤ v ∧ v ≤ 32767 then s.ic + 1#8 else s.ic
        | .halt _ => t.ic = s.ic
        | .add _ | .sub _ | .mul _ | .div _ | .mod _ | .and _ | .orr _ | .xor _ | .not _ | .lsr _ | .asr _
        | .lsl _ | .load _ | .stor _ | .wrte _ => t.ic = s.ic + 1#8

/-! ### Arithmetic -/

/-- R91, R92, R93: ADD, SUB, MUL leave the exact signed result and advance, or, when it is out of range, raise
ACCUMULATOR_OVERFLOW and write nothing else. -/
def Obligations.AddSubMulExactOrFatal : Prop :=
  ∀ (mk : Byte → Instr) (code : OpcodeMap → Byte) (n : Byte) (f : Int → Int → Int),
    (mk, code, n, f) ∈
      [(Instr.add, OpcodeMap.add, 0x30#8, fun x y => x + y), (Instr.sub, OpcodeMap.sub, 0x31#8, fun x y => x - y),
        (Instr.mul, OpcodeMap.mul, 0x32#8, fun x y => x * y)] →
    ∀ (a : Byte) (s : State) (r : Int), r = f (s16 s.acc) (s16 (Memory.read s.mem a)) →
      EncodesAs (mk a) code n ∧
        (InRange r → CanAdvance s →
          exec (mk a) s = .next { s with acc := pat16 r, ic := s.ic + 1#8 } ∧ s16 (pat16 r) = r) ∧
        (¬InRange r → exec (mk a) s = .next (fatalState .accumulatorOverflow s))

/-- R94: DIV: a zero divisor word is fatal whatever the accumulator; then the quotient of R96, which is out of range
for the one pair -32768 and -1 only. The rounding is the parameter's (D4, log 6). -/
def Obligations.DivChecksZeroThenRange : Prop :=
  ∀ (a : Byte) (s : State) (m : Word) (q : Int), m = Memory.read s.mem a →
    q = quotient s.cfg.divRounding (s16 s.acc) (s16 m) →
    EncodesAs (.div a) OpcodeMap.div 0x33#8 ∧
      (m = 0#16 → exec (.div a) s = .next (fatalState .divideByZero s)) ∧
      (m ≠ 0#16 → (InRange q ↔ ¬(s16 s.acc = -32768 ∧ s16 m = -1))) ∧
      (m ≠ 0#16 → InRange q → CanAdvance s →
        exec (.div a) s = .next { s with acc := pat16 q, ic := s.ic + 1#8 } ∧ s16 (pat16 q) = q) ∧
      (m ≠ 0#16 → ¬InRange q → exec (.div a) s = .next (fatalState .accumulatorOverflow s))

/-- R95: MOD: a zero divisor word is fatal; otherwise the remainder of R96, which is never out of range. The rounding is
the parameter's (D4, log 6). -/
def Obligations.ModNeverOverflows : Prop :=
  ∀ (a : Byte) (s : State) (m : Word) (r : Int), m = Memory.read s.mem a →
    r = remainder s.cfg.divRounding (s16 s.acc) (s16 m) →
    EncodesAs (.mod a) OpcodeMap.mod 0x34#8 ∧
      (m = 0#16 → exec (.mod a) s = .next (fatalState .divideByZero s)) ∧
      (m ≠ 0#16 → r.natAbs < (s16 m).natAbs ∧ r.natAbs ≤ 32767) ∧
      (m ≠ 0#16 → CanAdvance s →
        exec (.mod a) s = .next { s with acc := pat16 r, ic := s.ic + 1#8 } ∧ s16 (pat16 r) = r)

/-- R96: `tdiv` and `trem`, their counterparts under `DIV_ROUNDING = floor`, and where the two settings agree; the
default is `truncate`. The rounding is in no source; the parameter is the spec's own (D4, log 6). -/
def Obligations.DivisionRounding : Prop :=
  State.reset.cfg.divRounding = .truncate ∧
    ∀ a b q r qf rf : Int, b ≠ 0 → q = quotient .truncate a b → r = remainder .truncate a b →
      qf = quotient .floor a b → rf = remainder .floor a b →
      q.natAbs = a.natAbs / b.natAbs ∧ (q = 0 ∨ q.sign = (a * b).sign) ∧ r = a - b * q ∧
        (r = 0 ∨ r.sign = a.sign) ∧ r.natAbs < b.natAbs ∧ a = b * q + r ∧
        qf = ⌊(a : ℚ) / (b : ℚ)⌋ ∧ rf = a - b * qf ∧ (rf = 0 ∨ rf.sign = b.sign) ∧
        (0 ≤ a * b ∨ b ∣ a → q = qf ∧ r = rf)

/-- R76, parameter `ALU_W` (D14): an ALU with any internal precision of at least 32 bits answers what the ALU that
computes in the integers answers, for every function code and both settings of `DIV_ROUNDING`. -/
def Obligations.AluWidthDoesNotMatter : Prop :=
  ∀ (width : Nat) (cfg : Config) (fn : AluFn) (a m : Word), 32 ≤ width → aluAtWidth width cfg fn a m = alu cfg fn a m

/-! ### Logic and shifts -/

/-- R101, R102, R103: AND, ORR, XOR act bit by bit on the accumulator and the operand word, and advance. -/
def Obligations.LogicActsBitByBit : Prop :=
  ∀ (mk : Byte → Instr) (code : OpcodeMap → Byte) (n : Byte) (g : Bool → Bool → Bool),
    (mk, code, n, g) ∈
      [(Instr.and, OpcodeMap.and, 0x40#8, Bool.and), (Instr.orr, OpcodeMap.orr, 0x41#8, Bool.or),
        (Instr.xor, OpcodeMap.xor, 0x42#8, Bool.xor)] →
    ∀ (a : Byte) (s : State), EncodesAs (mk a) code n ∧
      (CanAdvance s → ∃ y : Word, exec (mk a) s = .next { s with acc := y, ic := s.ic + 1#8 } ∧
        ∀ i < 16, y.getLsbD i = g (s.acc.getLsbD i) ((Memory.read s.mem a).getLsbD i))

/-- R104: NOT makes 1 of 0 and 0 of everything else, whatever its operand field; twice, it is not the identity. -/
def Obligations.NotIsLogical : Prop :=
  ∀ (a b : Byte) (s : State), EncodesAs (.not a) OpcodeMap.not 0x43#8 ∧
    (CanAdvance s → s.acc = 0#16 → exec (.not a) s = .next { s with acc := 1#16, ic := s.ic + 1#8 }) ∧
    (CanAdvance s → s.acc ≠ 0#16 → exec (.not a) s = .next { s with acc := 0#16, ic := s.ic + 1#8 }) ∧
    (s.cfg.icWrap = .wrap → ∃ t u, exec (.not a) s = .next t ∧ exec (.not b) t = .next u ∧
      u.acc = if s.acc = 0#16 then 0#16 else 1#16)

/-- R112: ASR keeps bit 15 and copies it into bit 14; the value is the half, rounded toward minus infinity; and it
is the source's construction by complements. -/
def Obligations.AsrKeepsTheSign : Prop :=
  ∀ (a : Byte) (s : State), EncodesAs (.asr a) OpcodeMap.asr 0x51#8 ∧
    (CanAdvance s → ∃ y : Word, exec (.asr a) s = .next { s with acc := y, ic := s.ic + 1#8 } ∧
      y.getLsbD 15 = s.acc.getLsbD 15 ∧ (∀ i < 15, y.getLsbD i = s.acc.getLsbD (i + 1)) ∧
      s16 y = ⌊(s16 s.acc : ℚ) / 2⌋ ∧
      y = if s16 s.acc < 0 then ~~~(~~~s.acc >>> 1) else s.acc >>> 1)

/-- R111: LSR under `LSR_VARIANT = arithmetic`, the default, does what ASR does; under `logical` it clears bit 15;
the two agree on a non-negative accumulator. The default is the spec's own decision (D3, C1; log 5). -/
def Obligations.LsrFollowsItsVariant : Prop :=
  State.reset.cfg.lsrVariant = .arithmetic ∧
    ∀ (a b : Byte) (s : State), EncodesAs (.lsr a) OpcodeMap.lsr 0x50#8 ∧
      (CanAdvance s → ∃ y : Word, exec (.lsr a) s = .next { s with acc := y, ic := s.ic + 1#8 } ∧
        (∀ i < 15, y.getLsbD i = s.acc.getLsbD (i + 1)) ∧
        (s.cfg.lsrVariant = .arithmetic →
          exec (.lsr a) s = exec (.asr b) s ∧ y.getLsbD 15 = s.acc.getLsbD 15 ∧ s16 y = ⌊(s16 s.acc : ℚ) / 2⌋) ∧
        (s.cfg.lsrVariant = .logical → y.getLsbD 15 = false ∧ u16 y = ⌊(u16 s.acc : ℚ) / 2⌋) ∧
        (0 ≤ s16 s.acc → s16 y = ⌊(s16 s.acc : ℚ) / 2⌋))

/-- R113: LSL drops bit 15, brings 0 into bit 0 and checks nothing; the pattern is that of the doubled value, and
the value is doubled where that fits. That the low 16 bits stay is the spec's own reading (D8, log 19). -/
def Obligations.LslDropsTheSignBit : Prop :=
  ∀ (a : Byte) (s : State), EncodesAs (.lsl a) OpcodeMap.lsl 0x52#8 ∧
    (CanAdvance s → ∃ y : Word, exec (.lsl a) s = .next { s with acc := y, ic := s.ic + 1#8 } ∧
      y.getLsbD 0 = false ∧ (∀ i < 15, y.getLsbD (i + 1) = s.acc.getLsbD i) ∧ y = pat16 (2 * s16 s.acc) ∧
      (-16384 ≤ s16 s.acc → s16 s.acc ≤ 16383 → s16 y = 2 * s16 s.acc))

/-- R54: the operand bits of NOT, LSR, ASR, LSL and HALT have no effect on what the instruction does (the spec's
own decision D7, log 18). -/
def Obligations.IgnoredOperandBitsHaveNoEffect : Prop :=
  ∀ mk ∈ [Instr.not, Instr.lsr, Instr.asr, Instr.lsl, Instr.halt], ∀ (a b : Byte) (s : State),
    exec (mk a) s = exec (mk b) s

/-! ### Branches -/

/-- R77: the condition unit's three wires, in both of the rule's forms, exactly one of them true. -/
def Obligations.ConditionUnitWires : Prop :=
  ∀ w : Word, (condN w = true ↔ s16 w < 0) ∧ condN w = w.getLsbD 15 ∧ (condZ w = true ↔ w = 0x0000#16) ∧
    (condP w = true ↔ 0 < s16 w) ∧ (condP w = true ↔ w.getLsbD 15 = false ∧ w ≠ 0x0000#16) ∧
    (condN w).toNat + (condZ w).toNat + (condP w).toNat = 1

/-- R121 to R124: a branch whose condition holds puts its operand into `IC` and does not increment; otherwise it
increments. Nothing else changes. -/
def Obligations.BranchesJumpOrAdvance : Prop :=
  ∀ (a : Byte) (s : State),
    (EncodesAs (.b a) OpcodeMap.b 0x60#8 ∧ exec (.b a) s = .next { s with ic := a }) ∧
      ∀ (mk : Byte → Instr) (code : OpcodeMap → Byte) (n : Byte) (taken : Int → Prop),
        (mk, code, n, taken) ∈
          [(Instr.bneg, OpcodeMap.bneg, 0x61#8, fun v => v < 0), (Instr.bpos, OpcodeMap.bpos, 0x62#8, fun v => 0 < v),
            (Instr.bzro, OpcodeMap.bzro, 0x63#8, fun v => v = 0)] →
        EncodesAs (mk a) code n ∧ (taken (s16 s.acc) → exec (mk a) s = .next { s with ic := a }) ∧
          (¬taken (s16 s.acc) → CanAdvance s → exec (mk a) s = .next { s with ic := s.ic + 1#8 })

/-- R125: where jumping and advancing differ, exactly one of BNEG, BPOS, BZRO jumps. -/
def Obligations.ExactlyOneConditionalBranchTaken : Prop :=
  ∀ (a : Byte) (s : State), a ≠ s.ic + 1#8 →
    ∃! i, i ∈ [Instr.bneg a, Instr.bpos a, Instr.bzro a] ∧ exec i s = .next { s with ic := a }

/-! ### Load and store -/

/-- R131, R132: LOAD copies all 16 bits of the operand word into the accumulator, STOR all 16 bits of the
accumulator into the operand word, and no other word changes. -/
def Obligations.LoadAndStorMoveWholeWords : Prop :=
  ∀ (a : Byte) (s : State), Memory.wf s.mem = true →
    EncodesAs (.load a) OpcodeMap.load 0x20#8 ∧ EncodesAs (.stor a) OpcodeMap.stor 0x21#8 ∧
      (CanAdvance s →
        exec (.load a) s = .next { s with acc := Memory.read s.mem a, ic := s.ic + 1#8 } ∧
        ∃ t, exec (.stor a) s = .next t ∧ t = { s with mem := t.mem, ic := s.ic + 1#8 } ∧
          ∀ b, Memory.read t.mem b = if b = a then s.acc else Memory.read s.mem b)

/-- R32, R132: LOAD then STOR to the same address leaves memory as it was, as data. -/
def Obligations.LoadThenStorKeepsMemory : Prop :=
  ∀ (a : Byte) (s : State), Memory.wf s.mem = true → s.cfg.icWrap = .wrap →
    ∃ t u, exec (.load a) s = .next t ∧ exec (.stor a) t = .next u ∧ u.mem = s.mem ∧ u.acc = Memory.read s.mem a

/-- R35, R41: a STOR executes as fetched, even over its own word; a later fetch of the address returns the word
stored, as long as no write to it comes between. -/
def Obligations.StoreSeenByLaterFetch : Prop :=
  ∀ (a : Byte) (s : State), AboutToFetch s → s.fatal = false → s.cfg.opc.wf = true → Memory.wf s.mem = true →
    CanAdvance s → decode s.cfg.opc (Memory.read s.mem s.ic) = .instr (.stor a) →
    ∃ t, step s = .next t ∧ AboutToFetch t ∧ t.ir = Memory.read s.mem s.ic ∧ t.ic = s.ic + 1#8 ∧
      ∀ u v, AboutToFetch u → u.ic = a → Memory.read u.mem a = Memory.read t.mem a → step u = .next v →
        v.ir = s.acc

/-! ### Terminal -/

/-- R143: READ, with an integer at hand, prompts, takes it, and stores it and advances if it is in range; otherwise
it warns and changes neither `MEM`, `ACC` nor `IC`. -/
def Obligations.ReadTakesOneInteger : Prop :=
  ∀ (a : Byte) (s : State) (v : Int) (rest : List Int), s.waiting = false → s.input = v :: rest →
    Memory.wf s.mem = true →
    EncodesAs (.read a) OpcodeMap.read 0x10#8 ∧
      (InRange v → CanAdvance s →
        ∃ t, exec (.read a) s = .next t ∧
          t = { s with
            mem := t.mem, ic := s.ic + 1#8, input := rest, trace := s.trace ++ [.prompt, .input v] } ∧
          ∀ b, Memory.read t.mem b = if b = a then pat16 v else Memory.read s.mem b) ∧
      (¬InRange v →
        exec (.read a) s =
          .next { s with input := rest, trace := s.trace ++ [.prompt, .input v, .readRangeWarning] })

/-- R141 (log 12): a READ with no integer at hand prompts, once, and waits; of the state nothing else changes. -/
def Obligations.ReadWaitsWithoutAnInteger : Prop :=
  ∀ (a : Byte) (s : State), s.input = [] →
    (s.waiting = false → exec (.read a) s = .next { s with waiting := true, trace := s.trace ++ [.prompt] }) ∧
      (s.waiting = true → exec (.read a) s = .next s) ∧
      (s.run = .running → s.waiting = true → step s = .next s)

/-- R143: a READ repeats until it is given an in-range integer, one integer an attempt. -/
def Obligations.ReadRetriesUntilInRange : Prop :=
  ∀ (a : Byte) (s : State) (bad : List Int) (v : Int) (rest : List Int), AboutToFetch s → s.fatal = false →
    s.cfg.opc.wf = true → Memory.wf s.mem = true → CanAdvance s →
    decode s.cfg.opc (Memory.read s.mem s.ic) = .instr (.read a) → (∀ x ∈ bad, ¬InRange x) → InRange v →
    s.input = bad ++ v :: rest →
    ∃ t, core.run (bad.length + 1) s = .next t ∧
      t = { fetched s with
        ic := s.ic + 1#8
        mem := t.mem
        input := rest
        trace := s.trace ++ bad.flatMap (fun x => [.prompt, .input x, .readRangeWarning]) ++ [.prompt, .input v] } ∧
      ∀ b, Memory.read t.mem b = if b = a then pat16 v else Memory.read s.mem b

/-- R85 (d), R141 (log 12): without an integer a READ waits for as many steps as one likes, with no change after its
prompt; and when the terminal supplies an integer, the step ends as if it had been there at once. -/
def Obligations.WaitLengthDoesNotMatter : Prop :=
  ∀ (a : Byte) (s : State) (k : Nat) (v : Int), AboutToFetch s →
    decode s.cfg.opc (Memory.read s.mem s.ic) = .instr (.read a) → s.input = [] →
    ∃ u, core.run (k + 1) s = .next u ∧
      u = { fetched s with waiting := true, trace := s.trace ++ [.prompt] } ∧
      ∃ w, supply v u = some w ∧ step w = step { s with input := [v] }

/-- R144: WRTE emits the operand word and advances; nothing else changes. -/
def Obligations.WrteEmitsTheWord : Prop :=
  ∀ (a : Byte) (s : State), EncodesAs (.wrte a) OpcodeMap.wrte 0x11#8 ∧
    (CanAdvance s →
      exec (.wrte a) s = .next { s with ic := s.ic + 1#8, trace := s.trace ++ [.out (Memory.read s.mem a)] })

/-- R140, R141, R169: a step takes at most one integer, the next one, and only inside a READ, and the trace shows
it. -/
def Obligations.InputIsTakenInOrder : Prop :=
  ∀ s t : State, step s = .next t →
    t.input = s.input ∨
      ∃ v, s.input = v :: t.input ∧ .input v ∈ newEvents s t ∧
        (s.waiting = true ∨ ∃ a, decode s.cfg.opc (Memory.read s.mem s.ic) = .instr (.read a))

/-- R140: the trace is not machine state: no step depends on it, and a step only appends to it. The trace is the
spec's own rendering (D13, log 15). -/
def Obligations.TraceIsNeverRead : Prop :=
  ∀ s t : State, step s = .next t →
    ∃ es, t.trace = s.trace ++ es ∧
      ∀ tr, step { s with trace := tr } = .next { t with trace := tr ++ es }

/-! ### HALT, undefined opcodes, fatal errors -/

/-- R150: HALT writes nothing; its step stops the machine normally, with `IC` at the HALT and the HALT's word in the
latches. -/
def Obligations.HaltStopsNormally : Prop :=
  ∀ (a : Byte) (s : State), EncodesAs (.halt a) OpcodeMap.halt 0xFF#8 ∧ exec (.halt a) s = .next s ∧
    (AboutToFetch s → s.cfg.opc.wf = true → opcodeOf (Memory.read s.mem s.ic) = 0xFF#8 →
      step s = .next { fetched s with run := .stopped })

/-- R151: a word whose opcode no mnemonic has ends the run with UNDEFINED_OPCODE; 0x99 is such an opcode under every
map R5 admits. -/
def Obligations.UndefinedOpcodeIsFatal : Prop :=
  (∀ s : State, AboutToFetch s → (∀ m, s.cfg.opc.code m ≠ opcodeOf (Memory.read s.mem s.ic)) →
    step s =
      .next { fetched s with
        fatal := true
        cause := some .undefinedOpcode
        run := .stopped
        trace := s.trace ++ [.fatal .undefinedOpcode] }) ∧
    ∀ (opc : OpcodeMap) (m : Mnemonic), opc.wf = true → opc.code m ≠ 0x99#8

/-- R164: a step that raises a fatal error commits nothing: the latches hold the failing instruction, `FATAL`, the
cause and the diagnostic say so, the loop is stopped, and all else is as before the step. That `IC` is among the rest
is the spec's own decision (D5, log 17). -/
def Obligations.FatalErrorIsPrecise : Prop :=
  ∀ s t : State, s.fatal = false → step s = .next t → t.fatal = true →
    ∃ c, t = { fetched s with
      fatal := true, cause := some c, run := .stopped, trace := s.trace ++ [.fatal c] }

/-- R161, R162, R163: which fatal error a step raises, exactly when, what is recorded and which cause code is shown. The
numbers 1, 2, 3 of the codes are the spec's own (R165, D12; log 16), and so is that `IC` stays (D5, log 17). -/
def Obligations.FatalCausesExactly : Prop :=
  ∀ s : State, AboutToFetch s → s.cause = none →
    ((∃ t, step s = .next t ∧ t.cause = some .undefinedOpcode) ↔
      ∀ m, s.cfg.opc.code m ≠ opcodeOf (Memory.read s.mem s.ic)) ∧
    ((∃ t, step s = .next t ∧ t.cause = some .divideByZero) ↔
      ∃ a, (decode s.cfg.opc (Memory.read s.mem s.ic) = .instr (.div a) ∨
          decode s.cfg.opc (Memory.read s.mem s.ic) = .instr (.mod a)) ∧ Memory.read s.mem a = 0x0000#16) ∧
    ((∃ t, step s = .next t ∧ t.cause = some .accumulatorOverflow) ↔
      ∃ a i, decode s.cfg.opc (Memory.read s.mem s.ic) = .instr i ∧
        (i = .add a ∧ ¬InRange (s16 s.acc + s16 (Memory.read s.mem a)) ∨
          i = .sub a ∧ ¬InRange (s16 s.acc - s16 (Memory.read s.mem a)) ∨
          i = .mul a ∧ ¬InRange (s16 s.acc * s16 (Memory.read s.mem a)) ∨
          i = .div a ∧ s16 s.acc = -32768 ∧ s16 (Memory.read s.mem a) = -1)) ∧
    ∀ t c, step s = .next t → t.cause = some c →
      t.fatal = true ∧ t.ir = Memory.read s.mem s.ic ∧ t.opcode = opcodeOf t.ir ∧ t.operand = operandOf t.ir ∧
        t.ic = s.ic ∧ t.acc = s.acc ∧ t.mem = s.mem ∧
        (levels t).fatalCause =
          match c with
          | .accumulatorOverflow => 1#2
          | .divideByZero => 2#2
          | .undefinedOpcode => 3#2

/-- R81: a step that has finished leaves the loop STOPPED exactly when the opcode just fetched is HALT's or `FATAL`
is set. The check follows a step that has finished, so not one left waiting (log 12). -/
def Obligations.LoopCheckStops : Prop :=
  ∀ s t : State, AboutToFetch s → step s = .next t → t.waiting = false →
    t.opcode = opcodeOf (Memory.read s.mem s.ic) ∧
      (t.run = .stopped ↔ t.opcode = s.cfg.opc.halt ∨ t.fatal = true) ∧
      (t.run = .running → AboutToFetch t)

/-- R83 (log 13): STOPPED is final: nothing changes, however many steps are asked for. -/
def Obligations.StoppedIsFinal : Prop :=
  ∀ (s : State) (k : Nat), s.run = .stopped → core.run k s = .next s

/-- R165 (log 16): in a state that meets the invariants, the code on `fatal_cause` is that of the trace's fatal
event, and 0 without a fatal error. -/
def Obligations.CauseCodeFollowsTheTrace : Prop :=
  ∀ s : State, MachineInv s →
    (s.fatal = false ∧ (levels s).fatalCause = 0#2 ∧ ∀ c, Event.fatal c ∉ s.trace) ∨
      (s.fatal = true ∧ (levels s).fatalCause = 1#2 ∧ s.trace.getLast? = some (.fatal .accumulatorOverflow)) ∨
      (s.fatal = true ∧ (levels s).fatalCause = 2#2 ∧ s.trace.getLast? = some (.fatal .divideByZero)) ∨
      (s.fatal = true ∧ (levels s).fatalCause = 3#2 ∧ s.trace.getLast? = some (.fatal .undefinedOpcode))

/-- R84: the reporter reads nothing while the core runs, and after it has stopped every register, every word of
memory and the status. -/
def Obligations.ReporterReadsOnlyWhenStopped : Prop :=
  ∀ s : State, (observe s = none ↔ s.run = .running) ∧
    ∀ r, observe s = some r →
      r.acc = s.acc ∧ r.ic = s.ic ∧ r.ir = s.ir ∧ r.opcode = s.opcode ∧ r.operand = s.operand ∧
        r.memory.length = 256 ∧ (∀ a : Byte, r.memory[a.toNat]? = some (Memory.read s.mem a)) ∧
        (r.status = .haltedFatally ↔ s.fatal = true) ∧ (r.status = .haltedNormally ↔ s.fatal = false)

/-! ### Whole-machine rules and frames -/

/-- A step faults in no state; it answers a next state in every state but those in which `IC_WRAP = fault` has it refuse
the wrap of the counter (R13, D6; log 7). That every word decodes and every fetch succeeds is the spec's (R53, R72). That a
step asked of a STOPPED machine answers a next state (log 13; R71 and R83 say that no step exists there), that a READ left
waiting does (log 12), and that a fatal error is a next state and no fault (log 3), are the model's choices. -/
def Obligations.StepAnswersNextOrCounterWrap : Prop :=
  ∀ s : State, (∃ t, step s = .next t) ∨
    (step s = .refused .counterWraps ∧ s.run = .running ∧ s.cfg.icWrap = .fault ∧ s.ic = 0xFF#8)

/-- R10, R19, R20, R25: who writes what. No instruction writes the latches, the loop state or the parameters; `ACC`
and `MEM` are written by the instructions R10 lists and no others; only the arithmetic ones raise a fatal error and
none clears it; only READ takes input. -/
def Obligations.StateWrittenOnlyAsListed : Prop :=
  ∀ (i : Instr) (s t : State), exec i s = .next t →
    t.ir = s.ir ∧ t.opcode = s.opcode ∧ t.operand = s.operand ∧ t.run = s.run ∧ t.cfg = s.cfg ∧
      (i.writesAcc = false → t.acc = s.acc) ∧ (i.writesMem = false → t.mem = s.mem) ∧
      (i.isArithmetic = false → t.fatal = s.fatal ∧ t.cause = s.cause) ∧ (s.fatal = true → t.fatal = true) ∧
      (i.mnemonic ≠ .read → t.input = s.input ∧ t.waiting = s.waiting)

/-- Frame of ADD, SUB, MUL, DIV, MOD, AND, ORR, XOR, NOT, LSR, ASR, LSL and LOAD (R79, R90, R100, R110, R131): only
`ACC` and the counter change; or, for the first five, a fatal error changes only `FATAL`, the cause and the trace.
Every word of memory reads as before. -/
def Obligations.FrameOfAccumulatorForms : Prop :=
  ∀ (i : Instr) (s t : State),
    i.mnemonic ∈ [Mnemonic.add, .sub, .mul, .div, .mod, .and, .orr, .xor, .not, .lsr, .asr, .lsl, .load] →
    exec i s = .next t →
    (∀ b, Memory.read t.mem b = Memory.read s.mem b) ∧
      (t = { s with acc := t.acc, ic := t.ic } ∨
        (i.mnemonic ∈ [Mnemonic.add, .sub, .mul, .div, .mod] ∧
          t = { s with fatal := t.fatal, cause := t.cause, trace := t.trace }))

/-- Frame of B, BNEG, BPOS, BZRO and HALT (R120, R150): only the counter changes, and HALT leaves that too. -/
def Obligations.FrameOfBranchesAndHalt : Prop :=
  ∀ (i : Instr) (s t : State), i.mnemonic ∈ [Mnemonic.b, .bneg, .bpos, .bzro, .halt] → exec i s = .next t →
    t = { s with ic := t.ic } ∧ (∀ b, Memory.read t.mem b = Memory.read s.mem b) ∧
      (i.mnemonic = .halt → t.ic = s.ic)

/-- Frame of STOR and READ (R80, R132, R143): every word of memory but the one at the effective address reads as
before, and every register but the counter is unchanged; READ alone touches the input, the wait and the trace, and
changes no memory unless the integer it takes is in range. -/
def Obligations.FrameOfMemoryWriters : Prop :=
  ∀ (i : Instr) (a : Byte) (s t : State), i ∈ [Instr.stor a, Instr.read a] → Memory.wf s.mem = true →
    exec i s = .next t →
    (∀ b, b ≠ effectiveAddress a → Memory.read t.mem b = Memory.read s.mem b) ∧
      t = { s with mem := t.mem, ic := t.ic, waiting := t.waiting, input := t.input, trace := t.trace } ∧
      (i = .stor a → t.waiting = s.waiting ∧ t.input = s.input ∧ t.trace = s.trace) ∧
      (i = .read a → (∀ v, s.input.head? = some v → ¬InRange v) → t.mem = s.mem ∧ t.ic = s.ic)

/-- Frame of WRTE (R144): only the counter and the trace change. -/
def Obligations.FrameOfWrte : Prop :=
  ∀ (a : Byte) (s t : State), exec (.wrte a) s = .next t →
    t = { s with ic := t.ic, trace := t.trace } ∧ ∀ b, Memory.read t.mem b = Memory.read s.mem b

/-- R16, R17, R22: what the latches held before a fetch has no effect on the step. -/
def Obligations.LatchesNeverReadBeforeFetch : Prop :=
  ∀ (s : State) (w : Word) (x y : Byte), AboutToFetch s →
    step { s with ir := w, opcode := x, operand := y } = step s

/-- R85 (c), R121, R200: a branch to its own address runs for ever and changes nothing but the latches. -/
def Obligations.BranchToItselfNeverStops : Prop :=
  ∀ (s : State) (k : Nat), AboutToFetch s → s.fatal = false → s.cfg.opc.wf = true →
    decode s.cfg.opc (Memory.read s.mem s.ic) = .instr (.b s.ic) →
    core.run (k + 1) s = .next (fetched s)

/-- R17, R18, R20, R24, R140, R165: every step keeps the invariants, in every state that meets them. -/
def Obligations.StepKeepsInvariants : Prop :=
  ∀ s t : State, MachineInv s → step s = .next t → MachineInv t

/-- R24: the invariants hold in every state a run can reach, whatever the loader, the terminal and whoever holds
reset do. -/
def Obligations.ReachableStatesKeepInvariants : Prop := ∀ s : State, Reachable s → MachineInv s

/-- R70, R74 to R80, R82: the machine built of the four blocks (the control table of R75 driving the datapath) is
the machine of the step function: arm by arm, UNDEFINED included, and as one pass of the loop. -/
def Obligations.BlocksAgreeWithStepFunction : Prop :=
  (∀ (i : Instr) (s : State), datapath (controlRow (some i.mnemonic)) i.operand s = exec i s) ∧
    (∀ (a : Byte) (s : State), datapath (controlRow none) a s = execUndefined s) ∧
    ∀ s : State, blocksExecute s = fetchAndExecute s

/-- R192, R141: the terminal supplies an integer exactly when a READ waits for one, one integer to a READ; and the step
after it takes that integer and ends the wait, stored or rejected. The wait as a field of the state and the refusal of a
move that R192 assumes never are the model's (log 11, log 12). -/
def Obligations.TerminalSuppliesOnlyWaitingRead : Prop :=
  ∀ (v : Int) (s : State),
    ((∃ t, supply v s = some t) ↔ s.run = .running ∧ s.waiting = true ∧ s.input = []) ∧
      ∀ t, supply v s = some t →
        t = { s with input := [v] } ∧ (∀ x, supply x t = none) ∧
          (CanAdvance s → ∃ u, step t = .next u ∧ u.waiting = false ∧ u.input = [] ∧
            u.ic = (if InRange v then s.ic + 1#8 else s.ic) ∧
            u.trace = s.trace ++ (if InRange v then [.input v] else [.input v, .readRangeWarning]))
end

