-- ==== Sys2Proof/Laws/State.lean ====
section
/-! SUPPORT. What each named update of the state does to each field: one lemma per field per update, so that no later
proof unfolds a record update. -/

namespace Sys2Proof.Machine

/-! ### `State.setAcc` -/

@[simp] theorem State.setAcc_acc (s : State) (w : Word) : (s.setAcc w).acc = w := rfl
@[simp] theorem State.setAcc_ic (s : State) (w : Word) : (s.setAcc w).ic = s.ic := rfl
@[simp] theorem State.setAcc_ir (s : State) (w : Word) : (s.setAcc w).ir = s.ir := rfl
@[simp] theorem State.setAcc_opcode (s : State) (w : Word) : (s.setAcc w).opcode = s.opcode := rfl
@[simp] theorem State.setAcc_operand (s : State) (w : Word) : (s.setAcc w).operand = s.operand := rfl
@[simp] theorem State.setAcc_mem (s : State) (w : Word) : (s.setAcc w).mem = s.mem := rfl
@[simp] theorem State.setAcc_fatal (s : State) (w : Word) : (s.setAcc w).fatal = s.fatal := rfl
@[simp] theorem State.setAcc_run (s : State) (w : Word) : (s.setAcc w).run = s.run := rfl
@[simp] theorem State.setAcc_cause (s : State) (w : Word) : (s.setAcc w).cause = s.cause := rfl
@[simp] theorem State.setAcc_waiting (s : State) (w : Word) : (s.setAcc w).waiting = s.waiting := rfl
@[simp] theorem State.setAcc_input (s : State) (w : Word) : (s.setAcc w).input = s.input := rfl
@[simp] theorem State.setAcc_trace (s : State) (w : Word) : (s.setAcc w).trace = s.trace := rfl
@[simp] theorem State.setAcc_cfg (s : State) (w : Word) : (s.setAcc w).cfg = s.cfg := rfl

/-! ### `State.setIc` -/

@[simp] theorem State.setIc_acc (s : State) (a : Byte) : (s.setIc a).acc = s.acc := rfl
@[simp] theorem State.setIc_ic (s : State) (a : Byte) : (s.setIc a).ic = a := rfl
@[simp] theorem State.setIc_ir (s : State) (a : Byte) : (s.setIc a).ir = s.ir := rfl
@[simp] theorem State.setIc_opcode (s : State) (a : Byte) : (s.setIc a).opcode = s.opcode := rfl
@[simp] theorem State.setIc_operand (s : State) (a : Byte) : (s.setIc a).operand = s.operand := rfl
@[simp] theorem State.setIc_mem (s : State) (a : Byte) : (s.setIc a).mem = s.mem := rfl
@[simp] theorem State.setIc_fatal (s : State) (a : Byte) : (s.setIc a).fatal = s.fatal := rfl
@[simp] theorem State.setIc_run (s : State) (a : Byte) : (s.setIc a).run = s.run := rfl
@[simp] theorem State.setIc_cause (s : State) (a : Byte) : (s.setIc a).cause = s.cause := rfl
@[simp] theorem State.setIc_waiting (s : State) (a : Byte) : (s.setIc a).waiting = s.waiting := rfl
@[simp] theorem State.setIc_input (s : State) (a : Byte) : (s.setIc a).input = s.input := rfl
@[simp] theorem State.setIc_trace (s : State) (a : Byte) : (s.setIc a).trace = s.trace := rfl
@[simp] theorem State.setIc_cfg (s : State) (a : Byte) : (s.setIc a).cfg = s.cfg := rfl

/-! ### `State.writeMem` -/

@[simp] theorem State.writeMem_acc (s : State) (a : Byte) (w : Word) : (s.writeMem a w).acc = s.acc := rfl
@[simp] theorem State.writeMem_ic (s : State) (a : Byte) (w : Word) : (s.writeMem a w).ic = s.ic := rfl
@[simp] theorem State.writeMem_ir (s : State) (a : Byte) (w : Word) : (s.writeMem a w).ir = s.ir := rfl
@[simp] theorem State.writeMem_opcode (s : State) (a : Byte) (w : Word) : (s.writeMem a w).opcode = s.opcode := rfl
@[simp] theorem State.writeMem_operand (s : State) (a : Byte) (w : Word) : (s.writeMem a w).operand = s.operand := rfl
@[simp] theorem State.writeMem_mem (s : State) (a : Byte) (w : Word) : (s.writeMem a w).mem = Memory.write s.mem a w := rfl
@[simp] theorem State.writeMem_fatal (s : State) (a : Byte) (w : Word) : (s.writeMem a w).fatal = s.fatal := rfl
@[simp] theorem State.writeMem_run (s : State) (a : Byte) (w : Word) : (s.writeMem a w).run = s.run := rfl
@[simp] theorem State.writeMem_cause (s : State) (a : Byte) (w : Word) : (s.writeMem a w).cause = s.cause := rfl
@[simp] theorem State.writeMem_waiting (s : State) (a : Byte) (w : Word) : (s.writeMem a w).waiting = s.waiting := rfl
@[simp] theorem State.writeMem_input (s : State) (a : Byte) (w : Word) : (s.writeMem a w).input = s.input := rfl
@[simp] theorem State.writeMem_trace (s : State) (a : Byte) (w : Word) : (s.writeMem a w).trace = s.trace := rfl
@[simp] theorem State.writeMem_cfg (s : State) (a : Byte) (w : Word) : (s.writeMem a w).cfg = s.cfg := rfl

/-! ### `State.emit` -/

@[simp] theorem State.emit_acc (s : State) (e : Event) : (s.emit e).acc = s.acc := rfl
@[simp] theorem State.emit_ic (s : State) (e : Event) : (s.emit e).ic = s.ic := rfl
@[simp] theorem State.emit_ir (s : State) (e : Event) : (s.emit e).ir = s.ir := rfl
@[simp] theorem State.emit_opcode (s : State) (e : Event) : (s.emit e).opcode = s.opcode := rfl
@[simp] theorem State.emit_operand (s : State) (e : Event) : (s.emit e).operand = s.operand := rfl
@[simp] theorem State.emit_mem (s : State) (e : Event) : (s.emit e).mem = s.mem := rfl
@[simp] theorem State.emit_fatal (s : State) (e : Event) : (s.emit e).fatal = s.fatal := rfl
@[simp] theorem State.emit_run (s : State) (e : Event) : (s.emit e).run = s.run := rfl
@[simp] theorem State.emit_cause (s : State) (e : Event) : (s.emit e).cause = s.cause := rfl
@[simp] theorem State.emit_waiting (s : State) (e : Event) : (s.emit e).waiting = s.waiting := rfl
@[simp] theorem State.emit_input (s : State) (e : Event) : (s.emit e).input = s.input := rfl
@[simp] theorem State.emit_trace (s : State) (e : Event) : (s.emit e).trace = s.trace ++ [e] := rfl
@[simp] theorem State.emit_cfg (s : State) (e : Event) : (s.emit e).cfg = s.cfg := rfl

/-! ### `State.latch` -/

@[simp] theorem State.latch_acc (s : State) : (s.latch).acc = s.acc := rfl
@[simp] theorem State.latch_ic (s : State) : (s.latch).ic = s.ic := rfl
@[simp] theorem State.latch_ir (s : State) : (s.latch).ir = Memory.read s.mem s.ic := rfl
@[simp] theorem State.latch_opcode (s : State) : (s.latch).opcode = opcodeOf (Memory.read s.mem s.ic) := rfl
@[simp] theorem State.latch_operand (s : State) : (s.latch).operand = operandOf (Memory.read s.mem s.ic) := rfl
@[simp] theorem State.latch_mem (s : State) : (s.latch).mem = s.mem := rfl
@[simp] theorem State.latch_fatal (s : State) : (s.latch).fatal = s.fatal := rfl
@[simp] theorem State.latch_run (s : State) : (s.latch).run = s.run := rfl
@[simp] theorem State.latch_cause (s : State) : (s.latch).cause = s.cause := rfl
@[simp] theorem State.latch_waiting (s : State) : (s.latch).waiting = s.waiting := rfl
@[simp] theorem State.latch_input (s : State) : (s.latch).input = s.input := rfl
@[simp] theorem State.latch_trace (s : State) : (s.latch).trace = s.trace := rfl
@[simp] theorem State.latch_cfg (s : State) : (s.latch).cfg = s.cfg := rfl

/-! ### `State.wait` -/

@[simp] theorem State.wait_acc (s : State) : (s.wait).acc = s.acc := rfl
@[simp] theorem State.wait_ic (s : State) : (s.wait).ic = s.ic := rfl
@[simp] theorem State.wait_ir (s : State) : (s.wait).ir = s.ir := rfl
@[simp] theorem State.wait_opcode (s : State) : (s.wait).opcode = s.opcode := rfl
@[simp] theorem State.wait_operand (s : State) : (s.wait).operand = s.operand := rfl
@[simp] theorem State.wait_mem (s : State) : (s.wait).mem = s.mem := rfl
@[simp] theorem State.wait_fatal (s : State) : (s.wait).fatal = s.fatal := rfl
@[simp] theorem State.wait_run (s : State) : (s.wait).run = s.run := rfl
@[simp] theorem State.wait_cause (s : State) : (s.wait).cause = s.cause := rfl
@[simp] theorem State.wait_waiting (s : State) : (s.wait).waiting = true := rfl
@[simp] theorem State.wait_input (s : State) : (s.wait).input = s.input := rfl
@[simp] theorem State.wait_trace (s : State) : (s.wait).trace = s.trace := rfl
@[simp] theorem State.wait_cfg (s : State) : (s.wait).cfg = s.cfg := rfl

/-! ### `State.take` -/

@[simp] theorem State.take_acc (s : State) (v : Int) (rest : List Int) : (s.take v rest).acc = s.acc := rfl
@[simp] theorem State.take_ic (s : State) (v : Int) (rest : List Int) : (s.take v rest).ic = s.ic := rfl
@[simp] theorem State.take_ir (s : State) (v : Int) (rest : List Int) : (s.take v rest).ir = s.ir := rfl
@[simp] theorem State.take_opcode (s : State) (v : Int) (rest : List Int) : (s.take v rest).opcode = s.opcode := rfl
@[simp] theorem State.take_operand (s : State) (v : Int) (rest : List Int) : (s.take v rest).operand = s.operand := rfl
@[simp] theorem State.take_mem (s : State) (v : Int) (rest : List Int) : (s.take v rest).mem = s.mem := rfl
@[simp] theorem State.take_fatal (s : State) (v : Int) (rest : List Int) : (s.take v rest).fatal = s.fatal := rfl
@[simp] theorem State.take_run (s : State) (v : Int) (rest : List Int) : (s.take v rest).run = s.run := rfl
@[simp] theorem State.take_cause (s : State) (v : Int) (rest : List Int) : (s.take v rest).cause = s.cause := rfl
@[simp] theorem State.take_waiting (s : State) (v : Int) (rest : List Int) : (s.take v rest).waiting = false := rfl
@[simp] theorem State.take_input (s : State) (v : Int) (rest : List Int) : (s.take v rest).input = rest := rfl
@[simp] theorem State.take_trace (s : State) (v : Int) (rest : List Int) : (s.take v rest).trace = s.trace ++ [.input v] := rfl
@[simp] theorem State.take_cfg (s : State) (v : Int) (rest : List Int) : (s.take v rest).cfg = s.cfg := rfl

/-! ### `State.raiseFatal` -/

@[simp] theorem State.raiseFatal_acc (s : State) (c : FatalCause) : (s.raiseFatal c).acc = s.acc := rfl
@[simp] theorem State.raiseFatal_ic (s : State) (c : FatalCause) : (s.raiseFatal c).ic = s.ic := rfl
@[simp] theorem State.raiseFatal_ir (s : State) (c : FatalCause) : (s.raiseFatal c).ir = s.ir := rfl
@[simp] theorem State.raiseFatal_opcode (s : State) (c : FatalCause) : (s.raiseFatal c).opcode = s.opcode := rfl
@[simp] theorem State.raiseFatal_operand (s : State) (c : FatalCause) : (s.raiseFatal c).operand = s.operand := rfl
@[simp] theorem State.raiseFatal_mem (s : State) (c : FatalCause) : (s.raiseFatal c).mem = s.mem := rfl
@[simp] theorem State.raiseFatal_fatal (s : State) (c : FatalCause) : (s.raiseFatal c).fatal = true := rfl
@[simp] theorem State.raiseFatal_run (s : State) (c : FatalCause) : (s.raiseFatal c).run = s.run := rfl
@[simp] theorem State.raiseFatal_cause (s : State) (c : FatalCause) : (s.raiseFatal c).cause = some c := rfl
@[simp] theorem State.raiseFatal_waiting (s : State) (c : FatalCause) : (s.raiseFatal c).waiting = s.waiting := rfl
@[simp] theorem State.raiseFatal_input (s : State) (c : FatalCause) : (s.raiseFatal c).input = s.input := rfl
@[simp] theorem State.raiseFatal_trace (s : State) (c : FatalCause) : (s.raiseFatal c).trace = s.trace ++ [.fatal c] := rfl
@[simp] theorem State.raiseFatal_cfg (s : State) (c : FatalCause) : (s.raiseFatal c).cfg = s.cfg := rfl

/-! ### `State.prompt` -/

@[simp] theorem State.prompt_acc (s : State) : s.prompt.acc = s.acc := by
  unfold State.prompt; split <;> rfl
@[simp] theorem State.prompt_ic (s : State) : s.prompt.ic = s.ic := by
  unfold State.prompt; split <;> rfl
@[simp] theorem State.prompt_ir (s : State) : s.prompt.ir = s.ir := by
  unfold State.prompt; split <;> rfl
@[simp] theorem State.prompt_opcode (s : State) : s.prompt.opcode = s.opcode := by
  unfold State.prompt; split <;> rfl
@[simp] theorem State.prompt_operand (s : State) : s.prompt.operand = s.operand := by
  unfold State.prompt; split <;> rfl
@[simp] theorem State.prompt_mem (s : State) : s.prompt.mem = s.mem := by
  unfold State.prompt; split <;> rfl
@[simp] theorem State.prompt_fatal (s : State) : s.prompt.fatal = s.fatal := by
  unfold State.prompt; split <;> rfl
@[simp] theorem State.prompt_run (s : State) : s.prompt.run = s.run := by
  unfold State.prompt; split <;> rfl
@[simp] theorem State.prompt_cause (s : State) : s.prompt.cause = s.cause := by
  unfold State.prompt; split <;> rfl
@[simp] theorem State.prompt_waiting (s : State) : s.prompt.waiting = s.waiting := by
  unfold State.prompt; split <;> rfl
@[simp] theorem State.prompt_input (s : State) : s.prompt.input = s.input := by
  unfold State.prompt; split <;> rfl
@[simp] theorem State.prompt_trace (s : State) :
    s.prompt.trace = if s.waiting then s.trace else s.trace ++ [.prompt] := by
  unfold State.prompt; split <;> rfl
@[simp] theorem State.prompt_cfg (s : State) : s.prompt.cfg = s.cfg := by
  unfold State.prompt; split <;> rfl

/-! ### `State.loopCheck` -/

@[simp] theorem State.loopCheck_acc (s : State) : s.loopCheck.acc = s.acc := by
  unfold State.loopCheck; split <;> rfl
@[simp] theorem State.loopCheck_ic (s : State) : s.loopCheck.ic = s.ic := by
  unfold State.loopCheck; split <;> rfl
@[simp] theorem State.loopCheck_ir (s : State) : s.loopCheck.ir = s.ir := by
  unfold State.loopCheck; split <;> rfl
@[simp] theorem State.loopCheck_opcode (s : State) : s.loopCheck.opcode = s.opcode := by
  unfold State.loopCheck; split <;> rfl
@[simp] theorem State.loopCheck_operand (s : State) : s.loopCheck.operand = s.operand := by
  unfold State.loopCheck; split <;> rfl
@[simp] theorem State.loopCheck_mem (s : State) : s.loopCheck.mem = s.mem := by
  unfold State.loopCheck; split <;> rfl
@[simp] theorem State.loopCheck_fatal (s : State) : s.loopCheck.fatal = s.fatal := by
  unfold State.loopCheck; split <;> rfl
@[simp] theorem State.loopCheck_run (s : State) :
    s.loopCheck.run = if s.opcode = s.cfg.opc.halt ∨ s.fatal = true then .stopped else s.run := by
  unfold State.loopCheck; split <;> rfl
@[simp] theorem State.loopCheck_cause (s : State) : s.loopCheck.cause = s.cause := by
  unfold State.loopCheck; split <;> rfl
@[simp] theorem State.loopCheck_waiting (s : State) : s.loopCheck.waiting = s.waiting := by
  unfold State.loopCheck; split <;> rfl
@[simp] theorem State.loopCheck_input (s : State) : s.loopCheck.input = s.input := by
  unfold State.loopCheck; split <;> rfl
@[simp] theorem State.loopCheck_trace (s : State) : s.loopCheck.trace = s.trace := by
  unfold State.loopCheck; split <;> rfl
@[simp] theorem State.loopCheck_cfg (s : State) : s.loopCheck.cfg = s.cfg := by
  unfold State.loopCheck; split <;> rfl

end Sys2Proof.Machine
end

