-- ==== Sys2Proof/Laws/Operands.lean ====
section
/-! SUPPORT. The readings of a word as integers, the range check, and one lemma per shared operation of the ALU that
says all it can answer. -/

namespace Sys2Proof.Machine

/-- R6's `s16` is the library's two's complement reading. -/
theorem s16_eq_toInt (w : Word) : s16 w = w.toInt := by
  unfold s16
  rw [BitVec.toInt_eq_toNat_cond]
  have := w.isLt
  split <;> split <;> omega

theorem s16_bounds (w : Word) : -32768 ≤ s16 w ∧ s16 w ≤ 32767 := by
  have := w.isLt
  unfold s16
  split <;> omega

@[simp] theorem inRange_iff (v : Int) : inRange v = true ↔ -32768 ≤ v ∧ v ≤ 32767 := by
  simp [inRange]

/-- R6: `s16(pat16(v)) = v` for a signed 16-bit value. -/
theorem s16_pat16 {v : Int} (h : -32768 ≤ v ∧ v ≤ 32767) : s16 (pat16 v) = v := by
  rw [s16_eq_toInt, pat16, BitVec.toInt_ofInt]
  exact Int.bmod_eq_of_le (by omega) (by omega)

@[simp] theorem pat16_s16 (w : Word) : pat16 (s16 w) = w := by
  rw [s16_eq_toInt, pat16, BitVec.ofInt_toInt]

theorem s16_zero : s16 0#16 = 0 := rfl

/-- A word reads as 0 exactly when it is 0x0000. -/
theorem s16_eq_zero (w : Word) : s16 w = 0 ↔ w = 0#16 := by
  refine ⟨fun h => ?_, fun h => h ▸ rfl⟩
  have := pat16_s16 w
  rw [h] at this
  exact this.symm

theorem narrow_of_inRange {r : Int} (h : -32768 ≤ r ∧ r ≤ 32767) : narrow r = .value (pat16 r) := by
  simp [narrow, overflows, inRange, h.1, h.2]

theorem narrow_of_outOfRange {r : Int} (h : ¬(-32768 ≤ r ∧ r ≤ 32767)) :
    narrow r = .fail .accumulatorOverflow := by
  have : inRange r = false := by
    rw [← Bool.not_eq_true, inRange_iff]
    exact h
  simp [narrow, overflows, this]

/-- All that `advance` answers. -/
theorem advance_cases (s : State) :
    (advance s = .next (s.setIc (s.ic + 1#8)) ∧ (s.cfg.icWrap = .wrap ∨ s.ic ≠ 0xFF#8)) ∨
      (advance s = .refused .counterWraps ∧ s.cfg.icWrap = .fault ∧ s.ic = 0xFF#8) := by
  unfold advance
  split
  · rename_i h
    exact .inr ⟨rfl, h⟩
  · rename_i h
    refine .inl ⟨rfl, ?_⟩
    cases hw : s.cfg.icWrap with
    | wrap => exact .inl rfl
    | fault => exact .inr fun hi => h ⟨hw, hi⟩

theorem advance_next {s : State} (h : s.cfg.icWrap = .wrap ∨ s.ic ≠ 0xFF#8) :
    advance s = .next (s.setIc (s.ic + 1#8)) := by
  rcases advance_cases s with ⟨ha, -⟩ | ⟨-, hw, hi⟩
  · exact ha
  · rcases h with h | h
    · rw [hw] at h
      cases h
    · exact absurd hi h

theorem advance_refused {s : State} (hw : s.cfg.icWrap = .fault) (hi : s.ic = 0xFF#8) :
    advance s = .refused .counterWraps := by
  simp [advance, hw, hi]

/-- If `advance` answers a next state, only `IC` differs, by the increment. -/
theorem eq_of_advance {s t : State} (h : advance s = .next t) : t = s.setIc (s.ic + 1#8) := by
  rcases advance_cases s with ⟨ha, -⟩ | ⟨ha, -⟩
  · rw [ha] at h
    injection h with h
    exact h.symm
  · rw [ha] at h
    cases h

/-- All that an ALU arm answers as a next state. -/
theorem commitAlu_cases {r : AluResult} {s t : State} (h : commitAlu r s = .next t) :
    (∃ y, r = .value y ∧ t = (s.setAcc y).setIc (s.ic + 1#8)) ∨ (∃ c, r = .fail c ∧ t = s.raiseFatal c) := by
  cases r with
  | value y => exact .inl ⟨y, rfl, eq_of_advance h⟩
  | fail c =>
    injection h with h
    exact .inr ⟨c, rfl, h.symm⟩

/-- All that `narrow` answers. -/
theorem narrow_cases (r : Int) :
    narrow r = .value (pat16 r) ∧ (-32768 ≤ r ∧ r ≤ 32767) ∨
      narrow r = .fail .accumulatorOverflow ∧ ¬(-32768 ≤ r ∧ r ≤ 32767) := by
  by_cases h : -32768 ≤ r ∧ r ≤ 32767
  · exact .inl ⟨narrow_of_inRange h, h⟩
  · exact .inr ⟨narrow_of_outOfRange h, h⟩

end Sys2Proof.Machine
end

