-- ==== Sys2Proof/Laws/Alu.lean ====
section
/-! SUPPORT. The ALU's functions as the library's: the one-bit shifts as shifts of a bit vector, quotient and remainder
as the library's divisions, and the sign of a word as its bit 15. -/

namespace Sys2Proof.Machine

theorem s16_neg_iff (w : Word) : s16 w < 0 ↔ w.getLsbD 15 = true := by
  have h := BitVec.msb_eq_toInt (x := w)
  rw [BitVec.msb_eq_getLsbD_last, ← s16_eq_toInt] at h
  simp only [show 16 - 1 = 15 from rfl] at h
  rw [h, decide_eq_true_eq]

theorem s16_ne_zero {w : Word} (h : w ≠ 0#16) : s16 w ≠ 0 := fun hz => h ((s16_eq_zero w).mp hz)

/-- The bits of a one-bit field in front of a 15-bit field. -/
theorem getLsbD_one_append (x : BitVec 1) (y : BitVec 15) (i : Nat) :
    (show Word from x ++ y).getLsbD i = if i < 15 then y.getLsbD i else x.getLsbD (i - 15) := by
  have h := BitVec.getLsbD_append (x := x) (y := y) (i := i)
  exact h

/-- The bits of a 15-bit field in front of a one-bit field. -/
theorem getLsbD_append_one (x : BitVec 15) (y : BitVec 1) (i : Nat) :
    (show Word from x ++ y).getLsbD i = if i < 1 then y.getLsbD i else x.getLsbD (i - 1) := by
  have h := BitVec.getLsbD_append (x := x) (y := y) (i := i)
  exact h

theorem asr1_eq (w : Word) : asr1 w = w.sshiftRight 1 := by
  apply BitVec.eq_of_getLsbD_eq
  intro i hi
  refine (getLsbD_one_append _ _ i).trans ?_
  rw [BitVec.getLsbD_sshiftRight]
  by_cases h : i = 15
  · subst h
    simp [BitVec.msb_eq_getLsbD_last]
  · simp [show i < 15 by omega, show 1 + i < 16 by omega, show ¬16 ≤ i by omega]

theorem lsr1_arithmetic (w : Word) : lsr1 .arithmetic w = w.sshiftRight 1 := asr1_eq w

theorem lsr1_logical (w : Word) : lsr1 .logical w = w >>> 1 := by
  apply BitVec.eq_of_getLsbD_eq
  intro i hi
  refine (getLsbD_one_append _ _ i).trans ?_
  by_cases h : i = 15
  · subst h
    simp
  · simp [show i < 15 by omega]

theorem lsl1_eq (w : Word) : lsl1 w = w <<< 1 := by
  apply BitVec.eq_of_getLsbD_eq
  intro i hi
  refine (getLsbD_append_one _ _ i).trans ?_
  cases i with
  | zero => simp
  | succ i =>
    simp only [BitVec.getLsbD_shiftLeft]
    simp [show i < 15 by omega]
    omega

theorem quotient_truncate (a b : Int) : quotient .truncate a b = Int.tdiv a b := rfl

theorem quotient_floor (a b : Int) : quotient .floor a b = Int.fdiv a b := rfl

theorem remainder_truncate (a b : Int) : remainder .truncate a b = Int.tmod a b := by
  have := Int.mul_tdiv_add_tmod a b
  simp only [remainder, quotient]
  omega

theorem remainder_floor (a b : Int) : remainder .floor a b = Int.fmod a b := by
  have := Int.mul_fdiv_add_fmod a b
  simp only [remainder, quotient]
  omega

/-- The library states the bounds of `fmod` for a positive divisor; these are the other half. -/
theorem fmod_bounds_of_neg (x : Int) {y : Int} (h : y < 0) : y < Int.fmod x y ∧ Int.fmod x y ≤ 0 := by
  have h1 := Int.neg_fmod_neg x y
  have h2 := Int.fmod_nonneg_of_pos (-x) (b := -y) (by omega)
  have h3 := Int.fmod_lt_of_pos (-x) (b := -y) (by omega)
  omega

end Sys2Proof.Machine
end

