-- ==== Sys2Proof/Laws/Decode.lean ====
section
/-! SUPPORT. The small lemmas of the decoder and the encoder: fields of a word, the map's numbers, the lookup. -/

namespace Sys2Proof

@[simp] theorem opcodeOf_wordOf (x y : Byte) : opcodeOf (wordOf x y) = x := by
  unfold opcodeOf wordOf
  rw [BitVec.extractLsb'_append_eq_left]

@[simp] theorem operandOf_wordOf (x y : Byte) : operandOf (wordOf x y) = y := by
  unfold operandOf wordOf
  rw [BitVec.extractLsb'_append_eq_right]

/-- A word is its two halves put together. -/
@[simp] theorem wordOf_halves (w : Word) : wordOf (opcodeOf w) (operandOf w) = w := by
  unfold wordOf opcodeOf operandOf
  exact BitVec.extractLsb'_append_extractLsb'_eq_extractLsb' rfl |>.trans (by simp)

@[simp] theorem Instr.mnemonic_ofMnemonic (m : Mnemonic) (a : Byte) : (Instr.ofMnemonic m a).mnemonic = m := by
  cases m <;> rfl

@[simp] theorem Instr.operand_ofMnemonic (m : Mnemonic) (a : Byte) : (Instr.ofMnemonic m a).operand = a := by
  cases m <;> rfl

@[simp] theorem Instr.ofMnemonic_eta (i : Instr) : Instr.ofMnemonic i.mnemonic i.operand = i := by
  cases i <;> rfl

theorem Mnemonic.mem_all (m : Mnemonic) : m ∈ Mnemonic.all := by
  cases m <;> decide

/-- On a map that meets R5 no two mnemonics share a number. -/
theorem OpcodeMap.code_inj {opc : OpcodeMap} (h : opc.wf = true) {m m' : Mnemonic} (he : opc.code m = opc.code m') :
    m = m' := by
  simp only [OpcodeMap.wf, Bool.and_eq_true, OpcodeMap.injective, decide_eq_true_eq] at h
  exact List.inj_on_of_nodup_map h.1.1 (Mnemonic.mem_all m) (Mnemonic.mem_all m') he

theorem OpcodeMap.code_halt {opc : OpcodeMap} (h : opc.wf = true) : opc.halt = 0xFF#8 := by
  simp only [OpcodeMap.wf, Bool.and_eq_true, OpcodeMap.haltIsFF, beq_iff_eq] at h
  exact h.1.2

theorem OpcodeMap.code_ne_99 {opc : OpcodeMap} (h : opc.wf = true) (m : Mnemonic) : opc.code m ≠ 0x99#8 := by
  simp only [OpcodeMap.wf, Bool.and_eq_true, OpcodeMap.avoids99, List.all_eq_true, bne_iff_ne] at h
  exact h.2 m (Mnemonic.mem_all m)

/-- The mnemonic the lookup finds has the number it was asked for. -/
theorem code_of_mnemonicOf {opc : OpcodeMap} {x : Byte} {m : Mnemonic} (h : mnemonicOf opc x = some m) :
    opc.code m = x := by
  simpa using List.find?_some h

/-- The lookup finds the mnemonic of every number in the map's image. -/
theorem mnemonicOf_code {opc : OpcodeMap} (h : opc.wf = true) (m : Mnemonic) :
    mnemonicOf opc (opc.code m) = some m := by
  cases hf : mnemonicOf opc (opc.code m) with
  | none =>
    have := List.find?_eq_none.mp hf m (Mnemonic.mem_all m)
    simp at this
  | some m' => rw [OpcodeMap.code_inj h (code_of_mnemonicOf hf)]

/-- The lookup finds nothing exactly outside the image. -/
theorem mnemonicOf_eq_none {opc : OpcodeMap} {x : Byte} : mnemonicOf opc x = none ↔ ∀ m, opc.code m ≠ x := by
  unfold mnemonicOf
  rw [List.find?_eq_none]
  exact ⟨fun h m => by simpa using h m (Mnemonic.mem_all m), fun h m _ => by simpa using h m⟩

/-- What `decode` answers an instruction for. -/
theorem decode_eq_instr {opc : OpcodeMap} {w : Word} {i : Instr} (h : decode opc w = .instr i) :
    opc.code i.mnemonic = opcodeOf w ∧ i.operand = operandOf w := by
  unfold decode at h
  split at h
  · rename_i m hm
    injection h with h
    subst h
    exact ⟨by simpa using code_of_mnemonicOf hm, by simp⟩
  · cases h

/-- What `decode` answers UNDEFINED for. -/
theorem decode_eq_undefined {opc : OpcodeMap} {w : Word} {x y : Byte} (h : decode opc w = .undefined x y) :
    (∀ m, opc.code m ≠ x) ∧ x = opcodeOf w ∧ y = operandOf w := by
  unfold decode at h
  split at h
  · cases h
  · rename_i hm
    injection h with hx hy
    exact ⟨hx ▸ mnemonicOf_eq_none.mp hm, hx.symm, hy.symm⟩

end Sys2Proof
end

