-- ==== Sys2Proof/Laws/Exec.lean ====
section
/-! SUPPORT. The meaning of each instruction as one equation over the shared operations, which the later files cite
instead of unfolding `exec`. -/

namespace Sys2Proof.Machine

theorem exec_add (a : Byte) (s : State) :
    exec (.add a) s = commitAlu (narrow (s16 s.acc + s16 (Memory.read s.mem a))) s := rfl

theorem exec_sub (a : Byte) (s : State) :
    exec (.sub a) s = commitAlu (narrow (s16 s.acc - s16 (Memory.read s.mem a))) s := rfl

theorem exec_mul (a : Byte) (s : State) :
    exec (.mul a) s = commitAlu (narrow (s16 s.acc * s16 (Memory.read s.mem a))) s := rfl

theorem exec_div (a : Byte) (s : State) :
    exec (.div a) s = commitAlu (checkDivisor (Memory.read s.mem a)
      (quotient s.cfg.divRounding (s16 s.acc) (s16 (Memory.read s.mem a)))) s := rfl

theorem exec_mod (a : Byte) (s : State) :
    exec (.mod a) s = commitAlu (checkDivisor (Memory.read s.mem a)
      (remainder s.cfg.divRounding (s16 s.acc) (s16 (Memory.read s.mem a)))) s := rfl

theorem exec_and (a : Byte) (s : State) :
    exec (.and a) s = advance (s.setAcc (s.acc &&& Memory.read s.mem a)) := rfl

theorem exec_orr (a : Byte) (s : State) :
    exec (.orr a) s = advance (s.setAcc (s.acc ||| Memory.read s.mem a)) := rfl

theorem exec_xor (a : Byte) (s : State) :
    exec (.xor a) s = advance (s.setAcc (s.acc ^^^ Memory.read s.mem a)) := rfl

theorem exec_not (a : Byte) (s : State) : exec (.not a) s = advance (s.setAcc (logicalNot s.acc)) := rfl

theorem exec_lsr (a : Byte) (s : State) :
    exec (.lsr a) s = advance (s.setAcc (lsr1 s.cfg.lsrVariant s.acc)) := rfl

theorem exec_asr (a : Byte) (s : State) : exec (.asr a) s = advance (s.setAcc (asr1 s.acc)) := rfl

theorem exec_lsl (a : Byte) (s : State) : exec (.lsl a) s = advance (s.setAcc (lsl1 s.acc)) := rfl

theorem exec_b (a : Byte) (s : State) : exec (.b a) s = .next (s.setIc a) := rfl

theorem exec_bneg (a : Byte) (s : State) :
    exec (.bneg a) s = if condN s.acc then .next (s.setIc a) else advance s := rfl

theorem exec_bpos (a : Byte) (s : State) :
    exec (.bpos a) s = if condP s.acc then .next (s.setIc a) else advance s := rfl

theorem exec_bzro (a : Byte) (s : State) :
    exec (.bzro a) s = if condZ s.acc then .next (s.setIc a) else advance s := rfl

theorem exec_load (a : Byte) (s : State) : exec (.load a) s = advance (s.setAcc (Memory.read s.mem a)) := rfl

theorem exec_stor (a : Byte) (s : State) : exec (.stor a) s = advance (s.writeMem a s.acc) := rfl

theorem exec_read_none (a : Byte) (s : State) (h : s.input = []) : exec (.read a) s = .next s.prompt.wait := by
  simp only [exec, execRead, h]

theorem exec_read_some (a : Byte) (s : State) (v : Int) (rest : List Int) (h : s.input = v :: rest) :
    exec (.read a) s =
      if inRange v then advance ((s.prompt.take v rest).writeMem a (pat16 v))
      else .next ((s.prompt.take v rest).emit .readRangeWarning) := by
  simp only [exec, execRead, readAccept, effectiveAddress, h]

theorem exec_wrte (a : Byte) (s : State) :
    exec (.wrte a) s = advance (s.emit (.out (Memory.read s.mem a))) := rfl

theorem exec_halt (a : Byte) (s : State) : exec (.halt a) s = .next s := rfl

end Sys2Proof.Machine
end

