-- ==== Sys2Proof/Laws/Memory.lean ====
section
/-! SUPPORT. The laws of memory: a read after a write, the canonical form kept by every operation, and equality of
canonical memories that read alike. -/

namespace Sys2Proof.Machine

theorem Memory.lookup_consCell (n : Nat) (w : Word) (rest : Memory) (k : Nat)
    (h : Memory.lookup rest n = Memory.unlisted) :
    Memory.lookup (Memory.consCell n w rest) k = if k = n then w else Memory.lookup rest k := by
  unfold Memory.consCell
  split
  · split
    · simp_all
    · rfl
  · simp only [Memory.lookup, eq_comm]

/-- Below its first possible address a canonical memory lists nothing. -/
theorem Memory.lookup_below (m : Memory) (low n : Nat) (hm : Memory.wfFrom low m = true) (h : n < low) :
    Memory.lookup m n = Memory.unlisted := by
  induction m generalizing low with
  | nil => rfl
  | cons c rest ih =>
    obtain ⟨k, w⟩ := c
    simp only [Memory.wfFrom, Bool.and_eq_true, decide_eq_true_eq] at hm
    obtain ⟨⟨⟨hk, -⟩, -⟩, hr⟩ := hm
    have hne : k ≠ n := by omega
    simp only [Memory.lookup, hne, if_false]
    exact ih (k + 1) hr (by omega)

theorem Memory.wfFrom_mono (m : Memory) (low low' : Nat) (h : Memory.wfFrom low m = true) (hl : low' ≤ low) :
    Memory.wfFrom low' m = true := by
  cases m with
  | nil => rfl
  | cons c rest =>
    obtain ⟨k, w⟩ := c
    simp only [Memory.wfFrom, Bool.and_eq_true, decide_eq_true_eq] at h ⊢
    exact ⟨⟨⟨by omega, h.1.1.2⟩, h.1.2⟩, h.2⟩

theorem Memory.wfFrom_consCell (low n : Nat) (w : Word) (rest : Memory) (hl : low ≤ n) (hn : n < 256)
    (hr : Memory.wfFrom (n + 1) rest = true) : Memory.wfFrom low (Memory.consCell n w rest) = true := by
  unfold Memory.consCell
  split
  · exact Memory.wfFrom_mono rest _ _ hr (by omega)
  · simp_all [Memory.wfFrom]

theorem Memory.wfFrom_insert (m : Memory) (low n : Nat) (w : Word) (hm : Memory.wfFrom low m = true) (hl : low ≤ n)
    (hn : n < 256) : Memory.wfFrom low (Memory.insert m n w) = true := by
  induction m generalizing low with
  | nil => exact Memory.wfFrom_consCell low n w [] hl hn rfl
  | cons c rest ih =>
    obtain ⟨k, v⟩ := c
    simp only [Memory.insert]
    have hm' := hm
    simp only [Memory.wfFrom, Bool.and_eq_true, decide_eq_true_eq] at hm
    obtain ⟨⟨⟨hk, hk'⟩, hv⟩, hr⟩ := hm
    split
    · refine Memory.wfFrom_consCell low n w _ hl hn ?_
      simp only [Memory.wfFrom, Bool.and_eq_true, decide_eq_true_eq]
      exact ⟨⟨⟨by omega, hk'⟩, hv⟩, hr⟩
    · split
      · subst_vars
        exact Memory.wfFrom_consCell low _ w rest hl hn hr
      · simp only [Memory.wfFrom, Bool.and_eq_true, decide_eq_true_eq]
        exact ⟨⟨⟨hk, hk'⟩, hv⟩, ih (k + 1) hr (by omega)⟩

/-- Reads after an insertion, in a memory of canonical form. -/
theorem Memory.lookup_insert (m : Memory) (low n k : Nat) (w : Word) (hm : Memory.wfFrom low m = true) :
    Memory.lookup (Memory.insert m n w) k = if k = n then w else Memory.lookup m k := by
  induction m generalizing low with
  | nil => exact Memory.lookup_consCell n w [] k rfl
  | cons c rest ih =>
    obtain ⟨j, v⟩ := c
    have hm' := hm
    simp only [Memory.wfFrom, Bool.and_eq_true, decide_eq_true_eq] at hm
    obtain ⟨⟨⟨hj, hj'⟩, hv⟩, hr⟩ := hm
    simp only [Memory.insert]
    split
    · refine Memory.lookup_consCell n w _ k ?_
      have hne : j ≠ n := by omega
      simp only [Memory.lookup, hne, if_false]
      exact Memory.lookup_below rest (j + 1) n hr (by omega)
    · split
      · rename_i hn
        subst hn
        rw [Memory.lookup_consCell _ w rest k (Memory.lookup_below rest _ _ hr (by omega))]
        by_cases hk : k = n
        · simp [hk]
        · simp [Memory.lookup, hk, Ne.symm hk]
      · rename_i hn
        by_cases hk : j = k
        · subst hk
          simp [Memory.lookup, Ne.symm hn]
        · simp [Memory.lookup, hk, ih (j + 1) hr]

/-- `MemWrite` keeps the canonical form. -/
theorem Memory.write_wf (m : Memory) (a : Byte) (w : Word) (hm : Memory.wf m = true) :
    Memory.wf (Memory.write m a w) = true :=
  Memory.wfFrom_insert m 0 a.toNat w hm (Nat.zero_le _) a.isLt

/-- `MemRead` after `MemWrite`: the word written at its address, every other word as before. -/
theorem Memory.read_write (m : Memory) (a b : Byte) (w : Word) (hm : Memory.wf m = true) :
    Memory.read (Memory.write m a w) b = if b = a then w else Memory.read m b := by
  unfold Memory.read Memory.write
  rw [Memory.lookup_insert m 0 a.toNat b.toNat w hm]
  simp only [BitVec.toNat_inj]

/-- Canonical memories that read alike at every cell are equal. -/
theorem Memory.ext_lookup (m m' : Memory) (low : Nat) (hm : Memory.wfFrom low m = true)
    (hm' : Memory.wfFrom low m' = true) (h : ∀ n, Memory.lookup m n = Memory.lookup m' n) : m = m' := by
  induction m generalizing low m' with
  | nil =>
    cases m' with
    | nil => rfl
    | cons c rest =>
      obtain ⟨k, w⟩ := c
      simp only [Memory.wfFrom, Bool.and_eq_true, decide_eq_true_eq] at hm'
      have := h k
      simp_all [Memory.lookup]
  | cons c rest ih =>
    obtain ⟨k, w⟩ := c
    have hm0 := hm
    simp only [Memory.wfFrom, Bool.and_eq_true, decide_eq_true_eq] at hm
    obtain ⟨⟨⟨hk, hk'⟩, hw⟩, hr⟩ := hm
    cases m' with
    | nil =>
      have := h k
      simp_all [Memory.lookup]
    | cons c' rest' =>
      obtain ⟨j, v⟩ := c'
      have hm0' := hm'
      simp only [Memory.wfFrom, Bool.and_eq_true, decide_eq_true_eq] at hm'
      obtain ⟨⟨⟨hj, hj'⟩, hv⟩, hr'⟩ := hm'
      have hkj : k = j := by
        rcases Nat.lt_trichotomy k j with hlt | heq | hgt
        · have h1 := h k
          have hne : j ≠ k := by omega
          simp only [Memory.lookup, if_true, hne, if_false] at h1
          rw [Memory.lookup_below rest' (j + 1) k hr' (by omega)] at h1
          exact absurd h1 hw
        · exact heq
        · have h1 := h j
          have hne : k ≠ j := by omega
          simp only [Memory.lookup, if_true, hne, if_false] at h1
          rw [Memory.lookup_below rest (k + 1) j hr (by omega)] at h1
          exact absurd h1.symm hv
      subst hkj
      have hwv : w = v := by simpa [Memory.lookup] using h k
      subst hwv
      congr 1
      refine ih rest' (k + 1) hr hr' fun n => ?_
      by_cases hn : k = n
      · subst hn
        rw [Memory.lookup_below rest (k + 1) k hr (by omega), Memory.lookup_below rest' (k + 1) k hr' (by omega)]
      · simpa [Memory.lookup, hn] using h n

/-- Above the address space a canonical memory lists nothing. -/
theorem Memory.lookup_above (m : Memory) (low n : Nat) (hm : Memory.wfFrom low m = true) (h : 256 ≤ n) :
    Memory.lookup m n = Memory.unlisted := by
  induction m generalizing low with
  | nil => rfl
  | cons c rest ih =>
    obtain ⟨k, w⟩ := c
    simp only [Memory.wfFrom, Bool.and_eq_true, decide_eq_true_eq] at hm
    have hne : k ≠ n := by omega
    simp only [Memory.lookup, hne, if_false]
    exact ih (k + 1) hm.2

/-- Canonical memories that read alike at every address are equal data. -/
theorem Memory.ext_read (m m' : Memory) (hm : Memory.wf m = true) (hm' : Memory.wf m' = true)
    (h : ∀ a, Memory.read m a = Memory.read m' a) : m = m' := by
  refine Memory.ext_lookup m m' 0 hm hm' fun n => ?_
  by_cases hn : n < 256
  · have := h (BitVec.ofNat 8 n)
    simpa [Memory.read, Nat.mod_eq_of_lt hn] using this
  · rw [Memory.lookup_above m 0 n hm (by omega), Memory.lookup_above m' 0 n hm' (by omega)]

/-- The memory of the reset state is canonical. -/
theorem State.resetWith_mem_wf (cfg : Config) (input : List Int) :
    Memory.wf (State.resetWith cfg input).mem = true := rfl

end Sys2Proof.Machine
end

