-- ==== Sys2Proof/Laws/PerInstr.lean ====
section
/-! SUPPORT. Statements about every instruction as syntax, one lemma per constructor. -/

namespace Sys2Proof.Laws

/-- The word an instruction is encoded as carries its opcode number in the high half and its operand field, whole,
in the low half, under every opcode map (`30_encoding.md` rules R51 and R57). -/
def Encoding.Statement (i : Instr) : Prop :=
  ∀ opc : OpcodeMap, opcodeOf (encode opc i) = opc.code i.mnemonic ∧ operandOf (encode opc i) = i.operand

theorem Encoding.any (i : Instr) : Encoding.Statement i := fun _ =>
  ⟨opcodeOf_wordOf _ _, operandOf_wordOf _ _⟩

theorem Encoding.add (a : Byte) : Encoding.Statement (.add a) := Encoding.any _
theorem Encoding.sub (a : Byte) : Encoding.Statement (.sub a) := Encoding.any _
theorem Encoding.mul (a : Byte) : Encoding.Statement (.mul a) := Encoding.any _
theorem Encoding.div (a : Byte) : Encoding.Statement (.div a) := Encoding.any _
theorem Encoding.mod (a : Byte) : Encoding.Statement (.mod a) := Encoding.any _
theorem Encoding.and (a : Byte) : Encoding.Statement (.and a) := Encoding.any _
theorem Encoding.orr (a : Byte) : Encoding.Statement (.orr a) := Encoding.any _
theorem Encoding.xor (a : Byte) : Encoding.Statement (.xor a) := Encoding.any _
theorem Encoding.not (a : Byte) : Encoding.Statement (.not a) := Encoding.any _
theorem Encoding.lsr (a : Byte) : Encoding.Statement (.lsr a) := Encoding.any _
theorem Encoding.asr (a : Byte) : Encoding.Statement (.asr a) := Encoding.any _
theorem Encoding.lsl (a : Byte) : Encoding.Statement (.lsl a) := Encoding.any _
theorem Encoding.b (a : Byte) : Encoding.Statement (.b a) := Encoding.any _
theorem Encoding.bneg (a : Byte) : Encoding.Statement (.bneg a) := Encoding.any _
theorem Encoding.bpos (a : Byte) : Encoding.Statement (.bpos a) := Encoding.any _
theorem Encoding.bzro (a : Byte) : Encoding.Statement (.bzro a) := Encoding.any _
theorem Encoding.load (a : Byte) : Encoding.Statement (.load a) := Encoding.any _
theorem Encoding.stor (a : Byte) : Encoding.Statement (.stor a) := Encoding.any _
theorem Encoding.read (a : Byte) : Encoding.Statement (.read a) := Encoding.any _
theorem Encoding.wrte (a : Byte) : Encoding.Statement (.wrte a) := Encoding.any _
theorem Encoding.halt (a : Byte) : Encoding.Statement (.halt a) := Encoding.any _

end Sys2Proof.Laws
end

