-- ==== Sys2Proof/Laws/Step.lean ====
section
/-! SUPPORT. Said once: everything an instruction can do (`exec_cases`) and everything a step can do (`step_cases`).
Invariants and frames follow from these two without unfolding a meaning again. -/

namespace Sys2Proof.Machine

/-- Everything an instruction can do when it answers a next state. -/
theorem exec_cases {i : Instr} {s t : State} (h : exec i s = .next t) :
    (i.isArithmetic = true ∧ ∃ c, c ≠ .undefinedOpcode ∧ t = s.raiseFatal c) ∨
      (i.writesAcc = true ∧ ∃ y, t = (s.setAcc y).setIc (s.ic + 1#8)) ∨
      (∃ x, i.mnemonic ∈ [.b, .bneg, .bpos, .bzro] ∧ (x = i.operand ∨ x = s.ic + 1#8) ∧ t = s.setIc x) ∨
      (∃ a, i = .stor a ∧ t = (s.writeMem a s.acc).setIc (s.ic + 1#8)) ∨
      (∃ a, i = .read a ∧ s.input = [] ∧ t = s.prompt.wait) ∨
      (∃ a v rest, i = .read a ∧ s.input = v :: rest ∧ inRange v = true ∧
        t = ((s.prompt.take v rest).writeMem a (pat16 v)).setIc (s.ic + 1#8)) ∨
      (∃ a v rest, i = .read a ∧ s.input = v :: rest ∧ inRange v = false ∧
        t = (s.prompt.take v rest).emit .readRangeWarning) ∨
      (∃ a, i = .wrte a ∧ t = (s.emit (.out (Memory.read s.mem a))).setIc (s.ic + 1#8)) ∨
      (∃ a, i = .halt a ∧ t = s) := by
  have arith : ∀ (r : AluResult), i.isArithmetic = true → i.writesAcc = true → r ≠ .fail .undefinedOpcode →
      commitAlu r s = .next t →
      (i.isArithmetic = true ∧ ∃ c, c ≠ .undefinedOpcode ∧ t = s.raiseFatal c) ∨
        (i.writesAcc = true ∧ ∃ y, t = (s.setAcc y).setIc (s.ic + 1#8)) := by
    intro r ha hw hr hc
    rcases commitAlu_cases hc with ⟨y, -, ht⟩ | ⟨c, hrc, ht⟩
    · exact .inr ⟨hw, y, ht⟩
    · exact .inl ⟨ha, c, fun hc' => hr (hc' ▸ hrc), ht⟩
  have acc : ∀ y, advance (s.setAcc y) = .next t → ∃ y, t = (s.setAcc y).setIc (s.ic + 1#8) :=
    fun y hy => ⟨y, eq_of_advance hy⟩
  have narrowNe : ∀ r, narrow r ≠ .fail .undefinedOpcode := by
    intro r
    unfold narrow
    split <;> simp
  have checkNe : ∀ m r, checkDivisor m r ≠ .fail .undefinedOpcode := by
    intro m r
    unfold checkDivisor
    split
    · simp
    · exact narrowNe r
  have branch : ∀ (c : Bool) (a : Byte), branchIf c a s = .next t → ∃ x, (x = a ∨ x = s.ic + 1#8) ∧ t = s.setIc x := by
    intro c a hb
    unfold branchIf at hb
    split at hb
    · injection hb with hb
      exact ⟨a, .inl rfl, hb.symm⟩
    · exact ⟨s.ic + 1#8, .inr rfl, eq_of_advance hb⟩
  cases i with
  | add a => exact (arith _ rfl rfl (narrowNe _) h).imp id .inl
  | sub a => exact (arith _ rfl rfl (narrowNe _) h).imp id .inl
  | mul a => exact (arith _ rfl rfl (narrowNe _) h).imp id .inl
  | div a => exact (arith _ rfl rfl (checkNe _ _) h).imp id .inl
  | mod a => exact (arith _ rfl rfl (checkNe _ _) h).imp id .inl
  | and a => exact .inr (.inl ⟨rfl, acc _ ((exec_and a s).symm.trans h)⟩)
  | orr a => exact .inr (.inl ⟨rfl, acc _ ((exec_orr a s).symm.trans h)⟩)
  | xor a => exact .inr (.inl ⟨rfl, acc _ ((exec_xor a s).symm.trans h)⟩)
  | not a => exact .inr (.inl ⟨rfl, acc _ ((exec_not a s).symm.trans h)⟩)
  | lsr a => exact .inr (.inl ⟨rfl, acc _ ((exec_lsr a s).symm.trans h)⟩)
  | asr a => exact .inr (.inl ⟨rfl, acc _ ((exec_asr a s).symm.trans h)⟩)
  | lsl a => exact .inr (.inl ⟨rfl, acc _ ((exec_lsl a s).symm.trans h)⟩)
  | b a =>
    obtain ⟨x, hx, ht⟩ := branch true a h
    exact .inr (.inr (.inl ⟨x, by simp [Instr.mnemonic], hx, ht⟩))
  | bneg a =>
    obtain ⟨x, hx, ht⟩ := branch (condN s.acc) a h
    exact .inr (.inr (.inl ⟨x, by simp [Instr.mnemonic], hx, ht⟩))
  | bpos a =>
    obtain ⟨x, hx, ht⟩ := branch (condP s.acc) a h
    exact .inr (.inr (.inl ⟨x, by simp [Instr.mnemonic], hx, ht⟩))
  | bzro a =>
    obtain ⟨x, hx, ht⟩ := branch (condZ s.acc) a h
    exact .inr (.inr (.inl ⟨x, by simp [Instr.mnemonic], hx, ht⟩))
  | load a => exact .inr (.inl ⟨rfl, acc _ ((exec_load a s).symm.trans h)⟩)
  | stor a => exact .inr (.inr (.inr (.inl ⟨a, rfl, eq_of_advance h⟩)))
  | read a =>
    refine .inr (.inr (.inr (.inr ?_)))
    simp only [exec, execRead] at h
    split at h
    · rename_i hin
      injection h with h
      exact .inl ⟨a, rfl, hin, h.symm⟩
    · rename_i v rest hin
      unfold readAccept at h
      split at h
      · rename_i hv
        have ht := eq_of_advance h
        simp only [effectiveAddress, State.writeMem_ic, State.take_ic, State.prompt_ic] at ht
        exact .inr (.inl ⟨a, v, rest, rfl, hin, hv, ht⟩)
      · rename_i hv
        injection h with h
        exact .inr (.inr (.inl ⟨a, v, rest, rfl, hin, Bool.eq_false_iff.mpr hv, h.symm⟩))
  | wrte a => exact .inr (.inr (.inr (.inr (.inr (.inr (.inr (.inl ⟨a, rfl, eq_of_advance h⟩)))))))
  | halt a =>
    injection h with h
    exact .inr (.inr (.inr (.inr (.inr (.inr (.inr (.inr ⟨a, rfl, h.symm⟩)))))))

/-- No instruction faults, and only the wrap of the counter is refused. -/
theorem exec_stops {i : Instr} {s : State} :
    (∃ t, exec i s = .next t) ∨
      (exec i s = .refused .counterWraps ∧ s.cfg.icWrap = .fault ∧ s.ic = 0xFF#8) := by
  have adv : ∀ u : State, u.cfg = s.cfg → u.ic = s.ic →
      (∃ t, advance u = .next t) ∨ (advance u = .refused .counterWraps ∧ s.cfg.icWrap = .fault ∧ s.ic = 0xFF#8) := by
    intro u hc hi
    rcases advance_cases u with ⟨h, -⟩ | ⟨h, hw, hx⟩
    · exact .inl ⟨_, h⟩
    · exact .inr ⟨h, hc ▸ hw, hi ▸ hx⟩
  have com : ∀ r, (∃ t, commitAlu r s = .next t) ∨
      (commitAlu r s = .refused .counterWraps ∧ s.cfg.icWrap = .fault ∧ s.ic = 0xFF#8) := by
    intro r
    cases r with
    | value y => exact adv (s.setAcc y) rfl rfl
    | fail c => exact .inl ⟨_, rfl⟩
  have br : ∀ (c : Bool) (a : Byte), (∃ t, branchIf c a s = .next t) ∨
      (branchIf c a s = .refused .counterWraps ∧ s.cfg.icWrap = .fault ∧ s.ic = 0xFF#8) := by
    intro c a
    cases c with
    | true => exact .inl ⟨_, rfl⟩
    | false => exact adv s rfl rfl
  cases i with
  | add a => exact com _
  | sub a => exact com _
  | mul a => exact com _
  | div a => exact com _
  | mod a => exact com _
  | and a => exact exec_and a s ▸ adv _ rfl rfl
  | orr a => exact exec_orr a s ▸ adv _ rfl rfl
  | xor a => exact exec_xor a s ▸ adv _ rfl rfl
  | not a => exact exec_not a s ▸ adv _ rfl rfl
  | lsr a => exact exec_lsr a s ▸ adv _ rfl rfl
  | asr a => exact exec_asr a s ▸ adv _ rfl rfl
  | lsl a => exact exec_lsl a s ▸ adv _ rfl rfl
  | b a => exact br true a
  | bneg a => exact br (condN s.acc) a
  | bpos a => exact br (condP s.acc) a
  | bzro a => exact br (condZ s.acc) a
  | load a => exact adv _ rfl rfl
  | stor a => exact adv _ rfl rfl
  | read a =>
    simp only [exec, execRead]
    split
    · exact .inl ⟨_, rfl⟩
    · rename_i v rest hin
      unfold readAccept
      split
      · exact adv _ (by simp) (by simp)
      · exact .inl ⟨_, rfl⟩
  | wrte a => exact adv _ rfl rfl
  | halt a => exact .inl ⟨_, rfl⟩

/-- What the end of a step makes of a next state. -/
theorem finish_next {o : Host.Outcome State Fault Refusal} {t : State} (h : finish o = .next t) :
    ∃ u, o = .next u ∧ t = if u.waiting then u else u.loopCheck := by
  cases o with
  | next u =>
    simp only [finish, Host.Outcome.next.injEq] at h
    exact ⟨u, rfl, h.symm⟩
  | fault r => cases h
  | refused r => cases h

/-- What the loop check at the end of a step leaves: `run` is STOPPED where the check stops the loop, and nothing else
differs. -/
theorem loopCheck_cases (u : State) :
    (if u.waiting then u else u.loopCheck) = u ∧ (u.waiting = true ∨ u.opcode ≠ u.cfg.opc.halt ∧ u.fatal = false) ∨
      (if u.waiting then u else u.loopCheck) = { u with run := .stopped } ∧ u.waiting = false ∧
        (u.opcode = u.cfg.opc.halt ∨ u.fatal = true) := by
  cases hw : u.waiting with
  | true => exact .inl ⟨by simp, .inl rfl⟩
  | false =>
    by_cases h : u.opcode = u.cfg.opc.halt ∨ u.fatal = true
    · exact .inr ⟨by simp [State.loopCheck, h, hw], rfl, h⟩
    · refine .inl ⟨by simp [State.loopCheck, h], .inr ⟨fun ho => h (.inl ho), ?_⟩⟩
      simpa using fun hf => h (.inr hf)

/-- The loop check after a fatal error. -/
theorem loopCheck_raiseFatal (s : State) (c : FatalCause) :
    (s.raiseFatal c).loopCheck =
      { s with fatal := true, cause := some c, run := .stopped, trace := s.trace ++ [.fatal c] } := by
  simp [State.loopCheck, State.raiseFatal, State.emit]

/-- Everything a step can do when it answers a next state. -/
theorem step_cases {s t : State} (h : step s = .next t) :
    (s.run = .stopped ∧ t = s) ∨
      (s.run = .running ∧ s.waiting = true ∧
        ∃ u, exec (.read s.operand) s = .next u ∧ t = if u.waiting then u else u.loopCheck) ∨
      (s.run = .running ∧ s.waiting = false ∧ ∃ i u,
        decode s.cfg.opc (Memory.read s.mem s.ic) = .instr i ∧ exec i s.latch = .next u ∧
          t = if u.waiting then u else u.loopCheck) ∨
      (s.run = .running ∧ s.waiting = false ∧ ∃ x y,
        decode s.cfg.opc (Memory.read s.mem s.ic) = .undefined x y ∧
          t = (s.latch.raiseFatal .undefinedOpcode).loopCheck) := by
  unfold step coreStep at h
  split at h
  · rename_i hr
    injection h with h
    exact .inl ⟨hr, h.symm⟩
  · rename_i hr
    obtain ⟨u, hu, ht⟩ := finish_next h
    split at hu
    · rename_i hw
      exact .inr (.inl ⟨hr, hw, u, hu, ht⟩)
    · rename_i hw
      have hw' : s.waiting = false := by simpa using hw
      simp only [fetchAndExecute, State.latch_ir] at hu
      cases hd : decode s.cfg.opc (Memory.read s.mem s.ic) with
      | instr i =>
        rw [hd] at hu
        exact .inr (.inr (.inl ⟨hr, hw', i, u, rfl, hu, ht⟩))
      | undefined x y =>
        rw [hd] at hu
        simp only [dispatch, execUndefined, Host.Outcome.next.injEq] at hu
        subst hu
        refine .inr (.inr (.inr ⟨hr, hw', x, y, rfl, ?_⟩))
        rw [ht]
        simp [hw']

/-- The step of a core about to fetch. -/
theorem step_of_aboutToFetch {s : State} (h : AboutToFetch s) : step s = finish (fetchAndExecute s) := by
  obtain ⟨hr, hw⟩ := h
  simp [step, coreStep, hr, hw]

/-- The step of a core about to fetch a word that is an instruction. -/
theorem step_of_instr {s : State} {i : Instr} (h : AboutToFetch s)
    (hd : decode s.cfg.opc (Memory.read s.mem s.ic) = .instr i) : step s = finish (exec i s.latch) := by
  rw [step_of_aboutToFetch h, fetchAndExecute, State.latch_ir, hd]
  rfl

/-- The step of a core that waits inside READ. -/
theorem step_of_waiting {s : State} (hr : s.run = .running) (hw : s.waiting = true) :
    step s = finish (exec (.read s.operand) s) := by
  simp [step, coreStep, resumeRead, hr, hw]

/-- All that the terminal's move does. -/
theorem supply_eq_some {v : Int} {s t : State} :
    supply v s = some t ↔ (s.run = .running ∧ s.waiting = true ∧ s.input = []) ∧ { s with input := [v] } = t := by
  unfold supply
  split <;> simp_all

/-- The step of a stopped core. -/
theorem step_of_stopped {s : State} (hr : s.run = .stopped) : step s = .next s := by
  simp [step, coreStep, hr]

/-- A run of one step more is a step and the rest of the run. -/
theorem core_run_succ {s t : State} (k : Nat) (h : step s = .next t) : core.run (k + 1) s = core.run k t := by
  have hc : core.step s = .next t := h
  simp only [Host.Core.run]
  rw [hc]

/-- A word of an instruction other than HALT does not carry HALT's opcode, on a map that meets R5. -/
theorem opcodeOf_ne_halt {opc : OpcodeMap} {i : Instr} {w : Word} (hwf : opc.wf = true)
    (hd : decode opc w = .instr i) (hi : i.mnemonic ≠ .halt) : opcodeOf w ≠ opc.halt := fun h =>
  hi (OpcodeMap.code_inj (m' := .halt) hwf ((decode_eq_instr hd).1.trans h))

/-- The statements' fetched state is the one the step latches. -/
theorem fetched_eq_latch (s : State) : fetched s = s.latch := rfl

/-- The statements' fatal state is the one `raise Fatal` makes. -/
theorem fatalState_eq_raiseFatal (c : FatalCause) (s : State) : fatalState c s = s.raiseFatal c := rfl

end Sys2Proof.Machine
end

