-- ==== Sys2Proof/Tests/Slice0.lean ====
section
/-! SUPPORT. Small tests and the witnesses of the statements. The tests' expected values are those of
`95_test_vectors.md` (its tables A1 to H1) or worked out by hand from the rule named. A witness theorem shows states
and operands that meet a statement's hypotheses, clause by clause, at the values where its clauses meet. -/

namespace Sys2Proof.Tests

open Sys2Proof Sys2Proof.Machine

/-! ### The states the tests run on -/

/-- The vectors' start: `w` at `IC = 0x10`, operand word `m` at 0x20, `acc` in the accumulator. -/
def at10 (w acc m : Word) : State :=
  { State.reset with acc := acc, ic := 0x10#8, mem := Memory.write (Memory.write [] 0x20#8 m) 0x10#8 w }

/-- `s` with the terminal's integers. -/
def withInput (input : List Int) (s : State) : State := { s with input := input }

/-- `s` at address 255 with `IC_WRAP = fault`. -/
def aboutToWrap (s : State) : State := { s with ic := 0xFF#8, cfg := { s.cfg with icWrap := .fault } }

/-- `s` with `LSR_VARIANT = logical` and `DIV_ROUNDING = floor`. -/
def otherVariant (s : State) : State := { s with cfg := { s.cfg with lsrVariant := .logical, divRounding := .floor } }

/-- The next state of an outcome. -/
def after (o : Host.Outcome State Fault Refusal) : Option State :=
  match o with
  | .next t => some t
  | .fault _ => none
  | .refused _ => none

/-- What a test looks at. -/
structure Seen where
  acc : Word
  ic : Byte
  fatal : Bool
  run : RunState
deriving DecidableEq, Repr

/-- `ACC`, `IC`, `FATAL`, `RUN` after an outcome. -/
def seen (o : Host.Outcome State Fault Refusal) : Option Seen :=
  (after o).map fun t => ⟨t.acc, t.ic, t.fatal, t.run⟩

/-- What `seen` shows of a completing instruction at 0x10. -/
def completes (acc : Word) : Option Seen := some ⟨acc, 0x11#8, false, .running⟩

/-- What `seen` shows of a fatal error at 0x10. -/
def dies (acc : Word) : Option Seen := some ⟨acc, 0x10#8, true, .stopped⟩

/-- The trace after an outcome. -/
def events (o : Host.Outcome State Fault Refusal) : Option (List Event) := (after o).map State.trace

/-- A word of memory after an outcome. -/
def cell (o : Host.Outcome State Fault Refusal) (a : Byte) : Option Word := (after o).map fun t => Memory.read t.mem a

/-! ### Well-formedness: one ill-formed term for each check (R5, R193) -/

theorem test_standard_map_wf : OpcodeMap.standard.wf = true := by decide

theorem test_map_needs_haltIsFF :
    OpcodeMap.haltIsFF { OpcodeMap.standard with halt := 0x00#8 } = false ∧
      OpcodeMap.wf { OpcodeMap.standard with halt := 0x00#8 } = false := by decide

theorem test_map_avoids99 :
    OpcodeMap.avoids99 { OpcodeMap.standard with mod := 0x99#8 } = false ∧
      OpcodeMap.wf { OpcodeMap.standard with mod := 0x99#8 } = false := by decide

theorem test_map_is_injective :
    OpcodeMap.injective { OpcodeMap.standard with sub := 0x30#8 } = false ∧
      OpcodeMap.wf { OpcodeMap.standard with sub := 0x30#8 } = false := by decide

theorem test_image_wf : RawImage.wf [(255, 65535), (0, 0)] = true := by decide

theorem test_image_address_256 : RawImage.wf [(256, 0)] = false ∧ launch defaultConfig [(256, 0)] [] = none := by
  decide

theorem test_image_word_65536 : RawImage.wf [(0, 65536)] = false ∧ launch defaultConfig [(0, 65536)] [] = none := by
  decide

theorem test_memory_wf :
    Memory.wf State.reset.mem = true ∧ Memory.wf [(1, 5#16), (1, 6#16)] = false ∧
      Memory.wf [(2, 5#16), (1, 6#16)] = false ∧
      Memory.wf [(256, 5#16)] = false ∧ Memory.wf [(3, 0#16)] = false := by decide

theorem test_memory_write_canonical :
    Memory.write (Memory.write (Memory.write [] 9#8 1#16) 3#8 2#16) 9#8 0#16 = [(3, 2#16)] := by decide

/-! ### Decoding: every constructor by a word written from R51 and R56 -/

theorem test_decode_arithmetic :
    decode OpcodeMap.standard 0b0011000000001011#16 = .instr (.add 0x0B#8) ∧
      decode OpcodeMap.standard 0b0011000100010000#16 = .instr (.sub 0x10#8) ∧
      decode OpcodeMap.standard 0b0011001000010001#16 = .instr (.mul 0x11#8) ∧
      decode OpcodeMap.standard 0b0011001110000000#16 = .instr (.div 0x80#8) ∧
      decode OpcodeMap.standard 0b0011010000000001#16 = .instr (.mod 0x01#8) := by decide

theorem test_decode_logic :
    decode OpcodeMap.standard 0b0100000000100000#16 = .instr (.and 0x20#8) ∧
      decode OpcodeMap.standard 0b0100000100100001#16 = .instr (.orr 0x21#8) ∧
      decode OpcodeMap.standard 0b0100001000100010#16 = .instr (.xor 0x22#8) ∧
      decode OpcodeMap.standard 0b0100001110100101#16 = .instr (.not 0xA5#8) := by decide

theorem test_decode_shifts :
    decode OpcodeMap.standard 0b0101000000000000#16 = .instr (.lsr 0x00#8) ∧
      decode OpcodeMap.standard 0b0101000111111111#16 = .instr (.asr 0xFF#8) ∧
      decode OpcodeMap.standard 0b0101001000000001#16 = .instr (.lsl 0x01#8) := by decide

theorem test_decode_branches :
    decode OpcodeMap.standard 0b0110000011111111#16 = .instr (.b 0xFF#8) ∧
      decode OpcodeMap.standard 0b0110000101000000#16 = .instr (.bneg 0x40#8) ∧
      decode OpcodeMap.standard 0b0110001001000001#16 = .instr (.bpos 0x41#8) ∧
      decode OpcodeMap.standard 0b0110001101000010#16 = .instr (.bzro 0x42#8) := by decide

theorem test_decode_memory_terminal_system :
    decode OpcodeMap.standard 0b0010000000110000#16 = .instr (.load 0x30#8) ∧
      decode OpcodeMap.standard 0b0010000100110001#16 = .instr (.stor 0x31#8) ∧
      decode OpcodeMap.standard 0b0001000000010000#16 = .instr (.read 0x10#8) ∧
      decode OpcodeMap.standard 0b0001000100010001#16 = .instr (.wrte 0x11#8) ∧
      decode OpcodeMap.standard 0b1111111100000000#16 = .instr (.halt 0x00#8) ∧
      decode OpcodeMap.standard 0b1111111111111111#16 = .instr (.halt 0xFF#8) := by decide

/-- Table D1's undefined rows. -/
theorem test_decode_undefined :
    decode OpcodeMap.standard 0x9900#16 = .undefined 0x99#8 0x00#8 ∧
      decode OpcodeMap.standard 0x0000#16 = .undefined 0x00#8 0x00#8 ∧
      decode OpcodeMap.standard 0x3500#16 = .undefined 0x35#8 0x00#8 ∧
      decode OpcodeMap.standard 0x1234#16 = .undefined 0x12#8 0x34#8 := by decide

theorem test_encode : encode OpcodeMap.standard (.stor 0x12#8) = 0x2112#16 := by decide

theorem test_decodeTableWord :
    decodeTableWord 16 0x3020 = some (.add 0x20#8) ∧ decodeTableWord 16 0x9900 = none := by decide

theorem test_withFetchWord :
    seen (step ((State.reset).withFetchWord 16 0x60FF)) = some ⟨0#16, 0xFF#8, false, .running⟩ := by decide

/-! ### One step of each instruction (tables A1 to H1) -/

theorem test_add :
    seen (step (at10 0x3020#16 0x0005#16 0xFFFD#16)) = completes 0x0002#16 ∧
      seen (step (at10 0x3020#16 0xC000#16 0xC000#16)) = completes 0x8000#16 := by decide

theorem test_add_overflow :
    seen (step (at10 0x3020#16 0x7FFF#16 0x0001#16)) = dies 0x7FFF#16 ∧
      seen (step (at10 0x3020#16 0x8000#16 0xFFFF#16)) = dies 0x8000#16 := by decide

theorem test_sub :
    seen (step (at10 0x3120#16 0x0005#16 0x0001#16)) = completes 0x0004#16 ∧
      seen (step (at10 0x3120#16 0xFFFF#16 0x8000#16)) = completes 0x7FFF#16 := by decide

theorem test_sub_overflow :
    seen (step (at10 0x3120#16 0x0000#16 0x8000#16)) = dies 0x0000#16 ∧
      seen (step (at10 0x3120#16 0xFFFE#16 0x7FFF#16)) = dies 0xFFFE#16 := by decide

theorem test_mul :
    seen (step (at10 0x3220#16 0x012C#16 0xFFF9#16)) = completes 0xF7CC#16 ∧
      seen (step (at10 0x3220#16 0x0100#16 0xFF80#16)) = completes 0x8000#16 := by decide

theorem test_mul_overflow :
    seen (step (at10 0x3220#16 0x7FFF#16 0x7FFF#16)) = dies 0x7FFF#16 ∧
      seen (step (at10 0x3220#16 0x8000#16 0x8000#16)) = dies 0x8000#16 := by decide

theorem test_div :
    seen (step (at10 0x3320#16 0xFFF9#16 0x0002#16)) = completes 0xFFFD#16 ∧
      seen (step (otherVariant (at10 0x3320#16 0xFFF9#16 0x0002#16))) = completes 0xFFFC#16 := by decide

/-- S2: the zero divisor wins. -/
theorem test_div_fatal :
    events (step (at10 0x3320#16 0x8000#16 0x0000#16)) = some [.fatal .divideByZero] ∧
      events (step (at10 0x3320#16 0x8000#16 0xFFFF#16)) = some [.fatal .accumulatorOverflow] := by decide

theorem test_mod :
    seen (step (at10 0x3420#16 0x8000#16 0x0003#16)) = completes 0xFFFE#16 ∧
      seen (step (otherVariant (at10 0x3420#16 0x0001#16 0x8000#16))) = completes 0x8001#16 ∧
      seen (step (at10 0x3420#16 0x8000#16 0xFFFF#16)) = completes 0x0000#16 := by decide

theorem test_mod_fatal :
    events (step (at10 0x3420#16 0x8000#16 0x0000#16)) = some [.fatal .divideByZero] := by decide

theorem test_and : seen (step (at10 0x4020#16 0x8001#16 0xFFFE#16)) = completes 0x8000#16 := by decide

theorem test_orr : seen (step (at10 0x4120#16 0x0001#16 0x8000#16)) = completes 0x8001#16 := by decide

theorem test_xor : seen (step (at10 0x4220#16 0x7FFF#16 0x8000#16)) = completes 0xFFFF#16 := by decide

theorem test_not :
    seen (step (at10 0x4300#16 0x0005#16 0x0000#16)) = completes 0x0000#16 ∧
      seen (step (at10 0x43FF#16 0x0000#16 0x0000#16)) = completes 0x0001#16 := by decide

theorem test_lsr :
    seen (step (at10 0x5000#16 0xFFFC#16 0x0000#16)) = completes 0xFFFE#16 ∧
      seen (step (otherVariant (at10 0x5000#16 0xFFFC#16 0x0000#16))) = completes 0x7FFE#16 := by decide

theorem test_asr :
    seen (step (at10 0x5100#16 0xFFFD#16 0x0000#16)) = completes 0xFFFE#16 ∧
      seen (step (at10 0x5100#16 0x7FFF#16 0x0000#16)) = completes 0x3FFF#16 := by decide

theorem test_lsl :
    seen (step (at10 0x5200#16 0xC000#16 0x0000#16)) = completes 0x8000#16 ∧
      seen (step (at10 0x5200#16 0x8001#16 0x0000#16)) = completes 0x0002#16 := by decide

theorem test_b : seen (step (at10 0x6042#16 0x0007#16 0x0000#16)) = some ⟨0x0007#16, 0x42#8, false, .running⟩ := by
  decide

/-- Table B1, and S4: -1, 0 and 1 against each conditional branch. -/
theorem test_bneg :
    seen (step (at10 0x6140#16 0xFFFF#16 0x0000#16)) = some ⟨0xFFFF#16, 0x40#8, false, .running⟩ ∧
      seen (step (at10 0x6140#16 0x0000#16 0x0000#16)) = completes 0x0000#16 ∧
      seen (step (at10 0x6140#16 0x0001#16 0x0000#16)) = completes 0x0001#16 := by decide

theorem test_bpos :
    seen (step (at10 0x6240#16 0xFFFF#16 0x0000#16)) = completes 0xFFFF#16 ∧
      seen (step (at10 0x6240#16 0x0000#16 0x0000#16)) = completes 0x0000#16 ∧
      seen (step (at10 0x6240#16 0x0001#16 0x0000#16)) = some ⟨0x0001#16, 0x40#8, false, .running⟩ := by decide

theorem test_bzro :
    seen (step (at10 0x6340#16 0xFFFF#16 0x0000#16)) = completes 0xFFFF#16 ∧
      seen (step (at10 0x6340#16 0x0000#16 0x0000#16)) = some ⟨0x0000#16, 0x40#8, false, .running⟩ ∧
      seen (step (at10 0x6340#16 0x0001#16 0x0000#16)) = completes 0x0001#16 := by decide

theorem test_load :
    seen (step (at10 0x2020#16 0x1234#16 0x8000#16)) = completes 0x8000#16 ∧
      seen (step (at10 0x2010#16 0x0000#16 0x0000#16)) = completes 0x2010#16 := by decide

theorem test_stor :
    cell (step (at10 0x2120#16 0xF7CC#16 0x1111#16)) 0x20#8 = some 0xF7CC#16 ∧
      cell (step (at10 0x2110#16 0x0007#16 0x0000#16)) 0x10#8 = some 0x0007#16 ∧
      seen (step (at10 0x2110#16 0x0007#16 0x0000#16)) = completes 0x0007#16 := by decide

theorem test_read :
    cell (step (withInput [-7] (at10 0x1020#16 0x0001#16 0x0000#16))) 0x20#8 = some 0xFFF9#16 ∧
      events (step (withInput [-7] (at10 0x1020#16 0x0001#16 0x0000#16))) = some [.prompt, .input (-7)] ∧
      seen (step (withInput [-7] (at10 0x1020#16 0x0001#16 0x0000#16))) = completes 0x0001#16 := by decide

theorem test_read_rejects_65535 :
    seen (step (withInput [65535] (at10 0x1020#16 0x0001#16 0x0002#16))) = some ⟨0x0001#16, 0x10#8, false, .running⟩ ∧
      cell (step (withInput [65535] (at10 0x1020#16 0x0001#16 0x0002#16))) 0x20#8 = some 0x0002#16 ∧
      events (step (withInput [65535] (at10 0x1020#16 0x0001#16 0x0002#16))) =
        some [.prompt, .input 65535, .readRangeWarning] := by decide

theorem test_wrte :
    events (step (at10 0x1120#16 0x0001#16 0x8000#16)) = some [.out 0x8000#16] ∧
      seen (step (at10 0x1120#16 0x0001#16 0x8000#16)) = completes 0x0001#16 := by decide

theorem test_halt :
    seen (step (at10 0xFFAB#16 0x0007#16 0x0000#16)) = some ⟨0x0007#16, 0x10#8, false, .stopped⟩ ∧
      (after (step (at10 0xFFAB#16 0x0007#16 0x0000#16))).map (fun t => (t.ir, t.opcode, t.operand)) =
        some (0xFFAB#16, 0xFF#8, 0xAB#8) := by decide

theorem test_undefined :
    seen (step (at10 0x9900#16 0x0007#16 0x0000#16)) = dies 0x0007#16 ∧
      events (step (at10 0x9900#16 0x0007#16 0x0000#16)) = some [.fatal .undefinedOpcode] := by decide

/-- Table H1's wrap at address 255, and R13's refusal. -/
theorem test_wrap :
    exec (.stor 0x05#8) { State.reset with ic := 0xFF#8, acc := 1#16 } =
        .next { State.reset with ic := 0x00#8, acc := 1#16, mem := [(5, 1#16)] } ∧
      exec (.stor 0x05#8) (aboutToWrap State.reset) = .refused .counterWraps := ⟨rfl, rfl⟩

/-! ### Ports and reporter -/

theorem test_ports :
    portInteger 32 0xFFFFFFF9#32 = -7 ∧
      observe State.reset = none ∧
      (after (step (at10 0x9900#16 0x0007#16 0x0000#16))).map (fun t => ((levels t).stopped, (levels t).fatalCause)) =
        some (true, 3#2) ∧
      (after (step (at10 0x1020#16 0x0007#16 0x0000#16))).map (fun t => (levels t).inReq) = some true ∧
      (after (step (at10 0x1120#16 0x0001#16 0x000F#16))).map (fun t => outWord State.reset t) =
        some (some 0x000F#16) := by decide

/-! ### Witnesses of the statements' hypotheses -/

/-- A launch state: READ 20 at address 0, no integer typed yet. -/
def launched : State := loadImage [(0, 0x1020)] State.reset

/-- `s` in its next state, for the states below that a step reaches. -/
def stepped (s : State) : State := (after (step s)).getD s

theorem witness_LaunchHoldsTheImage :
    RawImage.wf [(256, 0)] = false ∧ RawImage.wf [(7, 1), (255, 65535), (7, 0)] = true ∧
      (launch defaultConfig [(7, 1), (255, 65535), (7, 2)] []).map State.mem =
        some [(7, 2#16), (255, 65535#16)] := by decide

theorem witness_DecodeInvertsEncode :
    OpcodeMap.standard.wf = true ∧ decode OpcodeMap.standard 0x2112#16 = .instr (.stor 0x12#8) ∧
      decode OpcodeMap.standard 0x3500#16 = .undefined 0x35#8 0x00#8 := by decide

theorem witness_UndefinedEncodingsCounted : OpcodeMap.standard.wf = true := by decide

/-- One state of each kind for the statements about a step: a word that decodes, of each shape. -/
theorem witness_StepRunsDecodedInstruction :
    AboutToFetch (at10 0x3020#16 5#16 6#16) ∧
      decode (at10 0x3020#16 5#16 6#16).cfg.opc (Memory.read (at10 0x3020#16 5#16 6#16).mem 0x10#8) =
        .instr (.add 0x20#8) ∧
      AboutToFetch (at10 0x1020#16 5#16 6#16) ∧
      decode (at10 0x1020#16 5#16 6#16).cfg.opc (Memory.read (at10 0x1020#16 5#16 6#16).mem 0x10#8) =
        .instr (.read 0x20#8) := by decide

theorem witness_CounterWrapsSilently :
    (Instr.stor 5#8).mnemonic ∈ [Mnemonic.and, .orr, .xor, .not, .lsr, .asr, .lsl, .load, .stor, .wrte] ∧
      ({ State.reset with ic := 0xFE#8 }).ic ≠ 0xFF#8 ∧
      ({ State.reset with ic := 0xFF#8 }).cfg.icWrap = .wrap := by decide

/-- Each kind of instruction at an edge of its condition: a sum that fits and one that does not, the pair DIV overflows
on, the three signs, READ with an integer in range, beyond it and with none. -/
theorem witness_WrapRefusedWhereCounterWouldAdvance :
    (aboutToWrap State.reset).ic = 0xFF#8 ∧ (aboutToWrap State.reset).cfg.icWrap = .fault ∧
      InRange (s16 0x7FFF#16 + s16 0#16) ∧ ¬InRange (s16 0x7FFF#16 + s16 1#16) ∧
      s16 0x8000#16 = -32768 ∧ s16 0xFFFF#16 = -1 ∧ 0 ≤ s16 0#16 ∧ s16 0#16 ≤ 0 ∧ ¬0 ≤ s16 0xFFFF#16 ∧ ¬s16 1#16 ≤ 0 ∧
      (withInput [32767] (aboutToWrap State.reset)).input = 32767 :: [] ∧ InRange 32767 ∧ ¬InRange 32768 ∧
      (aboutToWrap State.reset).input = [] := by decide

/-- A fatal error, an undefined opcode and an increment. -/
theorem witness_CounterAfterEachInstruction :
    AboutToFetch (at10 0x3020#16 0x7FFF#16 1#16) ∧ (at10 0x3020#16 0x7FFF#16 1#16).fatal = false ∧
      seen (step (at10 0x3020#16 0x7FFF#16 1#16)) = dies 0x7FFF#16 ∧
      seen (step (at10 0x9900#16 7#16 0#16)) = dies 7#16 ∧
      seen (step (at10 0x3020#16 0x7FFF#16 0#16)) = completes 0x7FFF#16 := by decide

/-- A branch taken and not taken, READ at an end of the range and beyond the other, HALT. -/
theorem witness_CounterAfterEachInstruction_branch_read_halt :
    seen (step (at10 0x6140#16 0x8000#16 0#16)) = some ⟨0x8000#16, 0x40#8, false, .running⟩ ∧
      seen (step (at10 0x6140#16 0x0000#16 0#16)) = completes 0#16 ∧
      seen (step (withInput [32767] (at10 0x1020#16 7#16 0#16))) = completes 7#16 ∧
      seen (step (withInput [-32769] (at10 0x1020#16 7#16 0#16))) = some ⟨7#16, 0x10#8, false, .running⟩ ∧
      seen (step (at10 0xFF00#16 7#16 0#16)) = some ⟨7#16, 0x10#8, false, .stopped⟩ := by decide

/-- The two ends of the range and the first values beyond them, for each of the three operations. -/
theorem witness_AddSubMulExactOrFatal :
    (InRange (s16 0x7FFF#16 + s16 0#16) ∧ ¬InRange (s16 0x7FFF#16 + s16 1#16)) ∧
      (InRange (s16 0x8000#16 - s16 0#16) ∧ ¬InRange (s16 0x8000#16 - s16 1#16)) ∧
      (InRange (s16 0xFFFE#16 * s16 0x4000#16) ∧ ¬InRange (s16 2#16 * s16 0x4000#16)) ∧
      CanAdvance (at10 0x3020#16 0#16 0#16) := by decide

theorem witness_DivChecksZeroThenRange :
    (0x0001#16 ≠ 0#16 ∧ InRange (quotient .truncate (s16 0x8000#16) (s16 1#16))) ∧
      ¬InRange (quotient .truncate (s16 0x8000#16) (s16 0xFFFF#16)) ∧
      ¬InRange (quotient .floor (s16 0x8000#16) (s16 0xFFFF#16)) ∧
      InRange (quotient .floor (s16 0x8001#16) (s16 0xFFFF#16)) ∧
      Memory.read (at10 0x3320#16 0x8000#16 0#16).mem 0x20#8 = 0#16 ∧
      CanAdvance (at10 0x3320#16 0#16 0#16) := by decide

theorem witness_ModNeverOverflows :
    Memory.read (at10 0x3420#16 0x8000#16 0#16).mem 0x20#8 = 0#16 ∧
      Memory.read (at10 0x3420#16 0x8000#16 0xFFFF#16).mem 0x20#8 ≠ 0#16 ∧
      CanAdvance (at10 0x3420#16 0#16 0#16) := by decide

/-- A pair of each sign pattern; the two settings agree on the first, the fourth and the last and differ on the
others. -/
theorem witness_DivisionRounding :
    (quotient .truncate 7 2, quotient .floor 7 2) = (3, 3) ∧
      (quotient .truncate (-7) 2, quotient .floor (-7) 2) = (-3, -4) ∧
      (quotient .truncate 7 (-2), quotient .floor 7 (-2)) = (-3, -4) ∧
      (quotient .truncate (-7) (-2), quotient .floor (-7) (-2)) = (3, 3) ∧
      (quotient .truncate (-6) 3, quotient .floor (-6) 3) = (-2, -2) := by decide

theorem witness_AluWidthDoesNotMatter : 32 ≤ defaultAluW ∧ 32 ≤ 33 := by decide

/-- Both cases of `CanAdvance`: at address 255 under `wrap`, and below it under `fault`. -/
theorem witness_LogicActsBitByBit :
    CanAdvance { State.reset with ic := 0xFF#8 } ∧ CanAdvance { aboutToWrap State.reset with ic := 0xFE#8 } := by decide

theorem witness_NotIsLogical :
    (at10 0x4300#16 0#16 0#16).acc = 0#16 ∧ (at10 0x4300#16 1#16 0#16).acc ≠ 0#16 ∧
      CanAdvance (at10 0x4300#16 1#16 0#16) ∧
      (at10 0x4300#16 1#16 0#16).cfg.icWrap = .wrap := by decide

theorem witness_AsrKeepsTheSign :
    CanAdvance (at10 0x5100#16 0x8000#16 0#16) := by decide

theorem witness_LsrFollowsItsVariant :
    CanAdvance (at10 0x5000#16 0x8000#16 0#16) ∧
      (at10 0x5000#16 0x8000#16 0#16).cfg.lsrVariant = .arithmetic ∧
      (otherVariant (at10 0x5000#16 0x8000#16 0#16)).cfg.lsrVariant = .logical ∧ 0 ≤ s16 0x7FFF#16 ∧ 0 ≤ s16 0#16 := by
  decide

theorem witness_LslDropsTheSignBit :
    CanAdvance (at10 0x5200#16 0xC000#16 0#16) ∧
      -16384 ≤ s16 0xC000#16 ∧ s16 0x3FFF#16 ≤ 16383 ∧ ¬s16 0x4000#16 ≤ 16383 ∧ ¬-16384 ≤ s16 0xBFFF#16 := by decide

theorem witness_IgnoredOperandBitsHaveNoEffect :
    (Instr.halt 0x00#8).operand = 0x00#8 ∧ (Instr.halt 0xAB#8).operand = 0xAB#8 ∧
      Instr.mnemonic (Instr.lsl 0xFF#8) = .lsl := by decide

/-- -1, 0 and 1: each condition holds once and fails twice. -/
theorem witness_BranchesJumpOrAdvance :
    s16 0xFFFF#16 < 0 ∧ ¬s16 0#16 < 0 ∧ ¬s16 1#16 < 0 ∧ 0 < s16 1#16 ∧ ¬0 < s16 0#16 ∧ ¬0 < s16 0xFFFF#16 ∧
      s16 0#16 = 0 ∧ ¬s16 1#16 = 0 ∧ ¬s16 0xFFFF#16 = 0 ∧
      CanAdvance (at10 0x6140#16 0#16 0#16) := by decide

theorem witness_ExactlyOneConditionalBranchTaken : 0x12#8 ≠ State.reset.ic + 1#8 := by decide

theorem witness_LoadAndStorMoveWholeWords :
    Memory.wf (at10 0x2020#16 1#16 2#16).mem = true ∧ CanAdvance (at10 0x2020#16 1#16 2#16) ∧
      Memory.wf (aboutToWrap (at10 0x2020#16 1#16 2#16)).mem = true := by decide

theorem witness_LoadThenStorKeepsMemory :
    Memory.wf (at10 0x2020#16 1#16 2#16).mem = true ∧ (at10 0x2020#16 1#16 2#16).cfg.icWrap = .wrap := by decide

/-- A STOR to the next address, and the state after it, which fetches what was stored. -/
theorem witness_StoreSeenByLaterFetch :
    AboutToFetch (at10 0x2111#16 0xFF00#16 0#16) ∧ (at10 0x2111#16 0xFF00#16 0#16).fatal = false ∧
      OpcodeMap.standard.wf = true ∧ Memory.wf (at10 0x2111#16 0xFF00#16 0#16).mem = true ∧
      CanAdvance (at10 0x2111#16 0xFF00#16 0#16) ∧
      decode OpcodeMap.standard (Memory.read (at10 0x2111#16 0xFF00#16 0#16).mem 0x10#8) = .instr (.stor 0x11#8) ∧
      AboutToFetch (stepped (at10 0x2111#16 0xFF00#16 0#16)) ∧
      (stepped (at10 0x2111#16 0xFF00#16 0#16)).ic = 0x11#8 ∧
      (after (step (stepped (at10 0x2111#16 0xFF00#16 0#16)))).map State.ir = some 0xFF00#16 := by decide

theorem witness_ReadTakesOneInteger :
    (withInput [32767] (at10 0x1020#16 7#16 0#16)).waiting = false ∧
      (withInput [32767] (at10 0x1020#16 7#16 0#16)).input = 32767 :: [] ∧
      Memory.wf (withInput [32767] (at10 0x1020#16 7#16 0#16)).mem = true ∧
      InRange 32767 ∧ InRange (-32768) ∧ ¬InRange 32768 ∧ ¬InRange (-32769) ∧
      CanAdvance (at10 0x1020#16 7#16 0#16) := by
  decide

/-- Before the prompt and after it. -/
theorem witness_ReadWaitsWithoutAnInteger :
    (at10 0x1020#16 7#16 0#16).input = [] ∧ (at10 0x1020#16 7#16 0#16).waiting = false ∧
      (stepped (at10 0x1020#16 7#16 0#16)).input = [] ∧ (stepped (at10 0x1020#16 7#16 0#16)).waiting = true ∧
      (stepped (at10 0x1020#16 7#16 0#16)).run = .running := by decide

/-- 70000 and 65535 are rejected, then 300 is taken. -/
theorem witness_ReadRetriesUntilInRange :
    AboutToFetch (withInput [70000, 65535, 300] (at10 0x1020#16 7#16 0#16)) ∧
      (withInput [70000, 65535, 300] (at10 0x1020#16 7#16 0#16)).fatal = false ∧ OpcodeMap.standard.wf = true ∧
      Memory.wf (at10 0x1020#16 7#16 0#16).mem = true ∧ CanAdvance (at10 0x1020#16 7#16 0#16) ∧
      decode OpcodeMap.standard (Memory.read (at10 0x1020#16 7#16 0#16).mem 0x10#8) = .instr (.read 0x20#8) ∧
      (∀ x ∈ [70000, 65535], ¬InRange x) ∧ InRange 300 ∧ [70000, 65535, 300] = [70000, 65535] ++ (300 : Int) :: [] := by
  decide

/-- R192: a READ that waits is supplied one integer and no second; without a waiting READ there is no move. -/
theorem test_supply :
    (supply 5 (stepped (at10 0x1020#16 7#16 0#16))).map State.input = some [5] ∧
      ((supply 5 (stepped (at10 0x1020#16 7#16 0#16))).bind (supply 6)).isNone = true ∧
      (supply 5 State.reset).isNone = true ∧ (supply 5 (stepped (at10 0xFF00#16 7#16 0#16))).isNone = true := by decide

/-- R86: the request of a READ that waits, and of one whose integer is at hand. -/
theorem test_inReqDuring :
    inReqDuring (at10 0x1020#16 7#16 0#16) (stepped (at10 0x1020#16 7#16 0#16)) = true ∧
      inReqDuring (withInput [5] (at10 0x1020#16 7#16 0#16)) (stepped (withInput [5] (at10 0x1020#16 7#16 0#16))) = true ∧
      inReqDuring (at10 0x1120#16 7#16 0#16) (stepped (at10 0x1120#16 7#16 0#16)) = false := by decide

theorem witness_WaitLengthDoesNotMatter :
    AboutToFetch (at10 0x1020#16 7#16 0#16) ∧ (at10 0x1020#16 7#16 0#16).input = [] ∧
      decode OpcodeMap.standard (Memory.read (at10 0x1020#16 7#16 0#16).mem 0x10#8) = .instr (.read 0x20#8) := by decide

theorem witness_WrteEmitsTheWord :
    CanAdvance (at10 0x1120#16 7#16 0#16) := by decide

/-- A step that takes an integer and one that takes none. -/
theorem witness_InputIsTakenInOrder :
    (after (step (withInput [5, 6] (at10 0x1020#16 7#16 0#16)))).map (fun t => (t.input, t.trace)) =
        some ([6], [.prompt, .input 5]) ∧
      (after (step (withInput [5, 6] (at10 0x3020#16 7#16 0#16)))).map (fun t => (t.input, t.trace)) =
        some ([5, 6], []) := by decide

/-- A step that appends two events and one that appends none. -/
theorem witness_TraceIsNeverRead :
    events (step (withInput [5] (at10 0x1020#16 7#16 0#16))) = some [.prompt, .input 5] ∧
      events (step (at10 0x2020#16 7#16 0#16)) = some [] := by decide

theorem witness_HaltStopsNormally :
    AboutToFetch (at10 0xFFAB#16 7#16 0#16) ∧ OpcodeMap.standard.wf = true ∧
      opcodeOf (Memory.read (at10 0xFFAB#16 7#16 0#16).mem 0x10#8) = 0xFF#8 := by decide

theorem witness_UndefinedOpcodeIsFatal :
    AboutToFetch (at10 0x3500#16 7#16 0#16) ∧ OpcodeMap.standard.wf = true ∧
      Memory.read (at10 0x3500#16 7#16 0#16).mem 0x10#8 = 0x3500#16 ∧
      ∀ m ∈ Mnemonic.all, OpcodeMap.standard.code m ≠ 0x35#8 := by decide

/-- One step for each cause. -/
theorem witness_FatalErrorIsPrecise :
    (at10 0x3020#16 0x7FFF#16 1#16).fatal = false ∧ seen (step (at10 0x3020#16 0x7FFF#16 1#16)) = dies 0x7FFF#16 ∧
      seen (step (at10 0x3420#16 0x7FFF#16 0#16)) = dies 0x7FFF#16 ∧
      seen (step (at10 0x3500#16 0x7FFF#16 0#16)) = dies 0x7FFF#16 := by decide

theorem witness_FatalCausesExactly :
    AboutToFetch (at10 0x3320#16 0x8000#16 0xFFFF#16) ∧ (at10 0x3320#16 0x8000#16 0xFFFF#16).cause = none ∧
      (stepped (at10 0x3320#16 0x8000#16 0xFFFF#16)).cause = some .accumulatorOverflow ∧
      (stepped (at10 0x3020#16 0x7FFF#16 1#16)).cause = some .accumulatorOverflow ∧
      (stepped (at10 0x3020#16 0x7FFF#16 0#16)).cause = none ∧
      (stepped (at10 0x3320#16 0x8000#16 0#16)).cause = some .divideByZero ∧
      (stepped (at10 0x3420#16 0x8000#16 0#16)).cause = some .divideByZero ∧
      (stepped (at10 0x9900#16 7#16 0#16)).cause = some .undefinedOpcode := by decide

/-- A step after which the loop goes on, one that stops at HALT, one that stops at a fatal error. -/
theorem witness_LoopCheckStops :
    AboutToFetch (at10 0x2020#16 7#16 0#16) ∧ (stepped (at10 0x2020#16 7#16 0#16)).waiting = false ∧
      (stepped (at10 0x2020#16 7#16 0#16)).run = .running ∧ (stepped (at10 0xFF00#16 7#16 0#16)).run = .stopped ∧
      (stepped (at10 0x9900#16 7#16 0#16)).run = .stopped := by decide

theorem witness_StoppedIsFinal : (stepped (at10 0xFF00#16 7#16 0#16)).run = .stopped := by decide

theorem reset_halves : State.reset.opcode = opcodeOf State.reset.ir ∧ State.reset.operand = operandOf State.reset.ir := by
  decide

/-- A halted state, and a state stopped by each cause, that meet the invariants. -/
theorem witness_CauseCodeFollowsTheTrace :
    MachineInv { State.reset with run := .stopped, ir := 0xFF00#16, opcode := 0xFF#8 } ∧
      ∀ c, MachineInv { State.reset with run := .stopped, fatal := true, cause := some c, trace := [.fatal c] } := by
  refine ⟨⟨by decide, by decide, by decide, by decide, by decide, fun c h => ?_, fun _ c h => ?_, by decide⟩, fun c =>
    ⟨rfl, ⟨reset_halves.1, reset_halves.2⟩, fun _ => rfl, fun _ => .inl rfl, rfl, fun d h => ?_, fun h => ?_, fun h => ?_⟩⟩
  · cases h
  · cases h
  · injection h with h
    rw [h]
    rfl
  · cases h
  · cases h

theorem witness_ReporterReadsOnlyWhenStopped :
    observe (at10 0xFF00#16 7#16 0#16) = none ∧
      (observe (stepped (at10 0xFF00#16 7#16 0#16))).map (fun r => (r.acc, r.ic, r.status)) =
        some (7#16, 0x10#8, .haltedNormally) ∧
      (observe (stepped (at10 0x9900#16 7#16 0#16))).map (fun r => (r.memory[0x10]?, r.status)) =
        some (some 0x9900#16, .haltedFatally) := by decide

/-- Both outcomes of a step. -/
theorem witness_StepAnswersNextOrCounterWrap :
    seen (step (at10 0x2020#16 7#16 5#16)) = completes 5#16 ∧
      (after (step (aboutToWrap { State.reset with mem := [(255, 0x2020#16)] }))).isNone = true := by decide

/-- An instruction of each clause that answers a next state. -/
theorem witness_StateWrittenOnlyAsListed :
    seen (exec (.stor 0x20#8) (at10 0x2120#16 7#16 5#16)) = completes 7#16 ∧
      (Instr.stor 0x20#8).writesAcc = false ∧ (Instr.b 0x20#8).writesMem = false ∧
      (Instr.read 0x20#8).isArithmetic = false ∧ (Instr.wrte 0x20#8).mnemonic ≠ .read ∧
      seen (exec (.load 0x20#8) { at10 0x2020#16 7#16 5#16 with fatal := true }) =
        some ⟨5#16, 0x11#8, true, .running⟩ := by decide

theorem witness_FrameOfAccumulatorForms :
    (Instr.mul 0x20#8).mnemonic ∈
        [Mnemonic.add, .sub, .mul, .div, .mod, .and, .orr, .xor, .not, .lsr, .asr, .lsl, .load] ∧
      seen (exec (.mul 0x20#8) (at10 0x3220#16 7#16 5#16)) = completes 35#16 ∧
      seen (exec (.mul 0x20#8) (at10 0x3220#16 0x7FFF#16 2#16)) = some ⟨0x7FFF#16, 0x10#8, true, .running⟩ := by decide

theorem witness_FrameOfBranchesAndHalt :
    (Instr.halt 0x20#8).mnemonic ∈ [Mnemonic.b, .bneg, .bpos, .bzro, .halt] ∧
      seen (exec (.halt 0x20#8) (at10 0xFF20#16 7#16 5#16)) = some ⟨7#16, 0x10#8, false, .running⟩ ∧
      seen (exec (.bpos 0x20#8) (at10 0x6220#16 7#16 5#16)) = some ⟨7#16, 0x20#8, false, .running⟩ := by decide

/-- STOR, READ with an integer in range, READ with one out of range, READ with none. -/
theorem witness_FrameOfMemoryWriters :
    Memory.wf (at10 0x2120#16 7#16 5#16).mem = true ∧
      seen (exec (.stor 0x20#8) (at10 0x2120#16 7#16 5#16)) = completes 7#16 ∧
      seen (exec (.read 0x20#8) (withInput [-32768] (at10 0x1020#16 7#16 5#16))) = completes 7#16 ∧
      seen (exec (.read 0x20#8) (withInput [32768] (at10 0x1020#16 7#16 5#16))) =
        some ⟨7#16, 0x10#8, false, .running⟩ ∧
      seen (exec (.read 0x20#8) (at10 0x1020#16 7#16 5#16)) = some ⟨7#16, 0x10#8, false, .running⟩ ∧
      (at10 0x1020#16 7#16 5#16).input.head? = none := by decide

theorem witness_FrameOfWrte : seen (exec (.wrte 0x20#8) (at10 0x1120#16 7#16 5#16)) = completes 7#16 := by decide

theorem witness_LatchesNeverReadBeforeFetch : AboutToFetch (at10 0x1120#16 7#16 5#16) := by decide

theorem witness_BranchToItselfNeverStops :
    AboutToFetch (at10 0x6010#16 7#16 5#16) ∧ (at10 0x6010#16 7#16 5#16).fatal = false ∧
      OpcodeMap.standard.wf = true ∧
      decode OpcodeMap.standard (Memory.read (at10 0x6010#16 7#16 5#16).mem 0x10#8) = .instr (.b 0x10#8) := by decide

/-- A state that waits inside READ, which meets the invariants, and the step that ends the wait. -/
theorem witness_StepKeepsInvariants :
    MachineInv (withInput [9] (stepped (at10 0x1020#16 7#16 5#16))) ∧
      seen (step (withInput [9] (stepped (at10 0x1020#16 7#16 5#16)))) = completes 7#16 := by
  refine ⟨⟨by decide, by decide, by decide, by decide, by decide, fun _ h => (by cases h), fun _ c h => ?_, by decide⟩,
    by decide⟩
  have h : Event.fatal c ∈ [Event.prompt] := h
  simp at h

/-- READ waits after its first step and can be supplied; the two ends of the range and the first value beyond. -/
theorem witness_TerminalSuppliesOnlyWaitingRead :
    (supply 32767 (stepped (at10 0x1020#16 7#16 0#16))).isSome = true ∧
      CanAdvance (stepped (at10 0x1020#16 7#16 0#16)) ∧ InRange 32767 ∧ InRange (-32768) ∧ ¬InRange 32768 := by decide

/-- A state reached by a launch, the step in which READ prompts, an integer from the terminal and the step that takes
it. -/
theorem witness_ReachableStatesKeepInvariants :
    ∃ s u w t, launch defaultConfig [(0, 0x1020)] [] = some s ∧ step s = .next u ∧ supply 5 u = some w ∧
      step w = .next t ∧ Memory.read t.mem 0x20#8 = 5#16 ∧ Reachable t := by
  refine ⟨launched, stepped launched, withInput [5] (stepped launched), stepped (withInput [5] (stepped launched)), rfl,
    rfl, rfl, rfl, by decide, ?_⟩
  exact .step (.supply (v := 5) (.step (.launch (cfg := defaultConfig) (img := [(0, 0x1020)]) (input := []) rfl) rfl)
    rfl) rfl

end Sys2Proof.Tests
end

section
/-! PROOFS. The two halves of a word as numbers, and the totality of the decoder (`30_encoding.md`). -/

namespace Sys2Proof

theorem opcodeOf_toNat (w : Word) : (opcodeOf w).toNat = w.toNat / 256 := by
  unfold opcodeOf
  rw [BitVec.extractLsb'_toNat, Nat.shiftRight_eq_div_pow]
  omega

theorem operandOf_toNat (w : Word) : (operandOf w).toNat = w.toNat % 256 := by
  unfold operandOf
  rw [BitVec.extractLsb'_toNat, Nat.shiftRight_zero]

/-- R51: `opCode = w >> 8`. -/
theorem opcodeOf_toNat_eq_shift (w : Word) : (opcodeOf w).toNat = (w >>> 8).toNat := by
  rw [opcodeOf_toNat, BitVec.toNat_ushiftRight, Nat.shiftRight_eq_div_pow]

/-- R51: `operand = w & 0xFF`. The mask is `2 ^ 8 - 1`, so it takes the remainder by `2 ^ 8`. -/
theorem operandOf_toNat_eq_mask (w : Word) : (operandOf w).toNat = (w &&& 0x00FF#16).toNat := by
  have hmask : w.toNat &&& (2 ^ 8 - 1) = w.toNat % 2 ^ 8 := Nat.and_two_pow_sub_one_eq_mod w.toNat 8
  rw [operandOf_toNat, BitVec.toNat_and]
  exact hmask.symm

theorem toNat_eq_halves (w : Word) : w.toNat = (opcodeOf w).toNat * 256 + (operandOf w).toNat := by
  rw [opcodeOf_toNat, operandOf_toNat]
  omega

/-- R53, R57: under any map the decoder answers an instruction that keeps the operand half, or UNDEFINED with both
halves. -/
theorem decode_total (opc : OpcodeMap) (w : Word) :
    (∃ i, decode opc w = .instr i ∧ i.operand = operandOf w) ∨
      decode opc w = .undefined (opcodeOf w) (operandOf w) := by
  cases hd : decode opc w with
  | instr i =>
    obtain ⟨-, hoperand⟩ := decode_eq_instr hd
    exact .inl ⟨i, rfl, hoperand⟩
  | undefined x y =>
    obtain ⟨-, hx, hy⟩ := decode_eq_undefined hd
    exact .inr (by rw [hx, hy])

/-- Settles O6: each half as a shift or mask and as a quotient or remainder, their reassembly, and the decoder's
totality. -/
theorem decoderSplitsTheWord : Obligations.DecoderSplitsTheWord := fun w =>
  ⟨opcodeOf_toNat_eq_shift w, operandOf_toNat_eq_mask w, opcodeOf_toNat w, operandOf_toNat w, toNat_eq_halves w,
    wordOf_halves w, fun opc => decode_total opc w⟩

end Sys2Proof
end

section
/-! PROOFS. The condition unit's three wires, and the loop check at the end of a step
(`40_sequencer_and_dispatch.md`). -/

namespace Sys2Proof.Machine

@[simp] theorem condN_iff (w : Word) : condN w = true ↔ s16 w < 0 := decide_eq_true_iff

@[simp] theorem condZ_iff (w : Word) : condZ w = true ↔ w = 0#16 := decide_eq_true_iff

@[simp] theorem condP_iff (w : Word) : condP w = true ↔ 0 < s16 w := decide_eq_true_iff

/-- R77: `N` is `ACC[15]`. -/
theorem condN_eq_signBit (w : Word) : condN w = w.getLsbD 15 :=
  Bool.eq_iff_iff.mpr ((condN_iff w).trans (s16_neg_iff w))

/-- R77: a word reads as positive when its sign bit is clear and it is not 0x0000. -/
theorem s16_pos_iff (w : Word) : 0 < s16 w ↔ w.getLsbD 15 = false ∧ w ≠ 0#16 := by
  rw [← Bool.not_eq_true, ← s16_neg_iff, ne_eq, ← s16_eq_zero]
  omega

/-- The three wires are the three cases of the sign of `s16(ACC)`. -/
theorem condWires_exactlyOne (w : Word) : (condN w).toNat + (condZ w).toNat + (condP w).toNat = 1 := by
  have hz : condZ w = decide (s16 w = 0) := decide_eq_decide.mpr (s16_eq_zero w).symm
  rw [hz, condN, condP]
  rcases lt_trichotomy (s16 w) 0 with h | h | h
  · simp [h, h.ne, h.le]
  · simp [h]
  · simp [h, h.ne', h.le]

/-- Settles O25, by the trichotomy of `s16(ACC)` and 0. -/
theorem conditionUnitWires : Obligations.ConditionUnitWires := fun w =>
  ⟨condN_iff w, condN_eq_signBit w, condZ_iff w, condP_iff w, (condP_iff w).trans (s16_pos_iff w),
    condWires_exactlyOne w⟩

/-- No instruction writes the opcode latch, the parameters or `RUN`. -/
theorem exec_opcode_cfg_run {i : Instr} {s t : State} (h : exec i s = .next t) :
    t.opcode = s.opcode ∧ t.cfg = s.cfg ∧ t.run = s.run := by
  rcases exec_cases h with ⟨-, c, -, rfl⟩ | ⟨-, y, rfl⟩ | ⟨x, -, -, rfl⟩ | ⟨a, -, rfl⟩ | ⟨a, -, -, rfl⟩ |
    ⟨a, v, rest, -, -, -, rfl⟩ | ⟨a, v, rest, -, -, -, rfl⟩ | ⟨a, -, rfl⟩ | ⟨a, -, rfl⟩ <;> simp

/-- The same of all 22 arms of the mux (R75). -/
theorem dispatch_opcode_cfg_run {d : Decoded} {s t : State} (h : dispatch d s = .next t) :
    t.opcode = s.opcode ∧ t.cfg = s.cfg ∧ t.run = s.run := by
  cases d with
  | instr i => exact exec_opcode_cfg_run h
  | undefined x y =>
    obtain rfl := Host.Outcome.next.inj h
    simp

/-- A step from a fetch is a pass of the loop that leaves the fetched opcode latched and the core RUNNING, followed by
the loop check unless READ was left waiting. -/
theorem step_fetch_then_check {s t : State} (hs : AboutToFetch s) (h : step s = .next t) :
    ∃ u, (u.opcode = opcodeOf (Memory.read s.mem s.ic) ∧ u.cfg = s.cfg ∧ u.run = .running) ∧
      t = if u.waiting then u else u.loopCheck := by
  rw [step_of_aboutToFetch hs] at h
  obtain ⟨u, hu, ht⟩ := finish_next h
  obtain ⟨hop, hcfg, hrun⟩ := dispatch_opcode_cfg_run hu
  exact ⟨u, ⟨hop, hcfg, hrun.trans hs.1⟩, ht⟩

/-- Settles O42, by the two outcomes of the loop check after a pass that leaves the core RUNNING. -/
theorem loopCheckStops : Obligations.LoopCheckStops := by
  intro s t hs h hwait
  obtain ⟨u, ⟨hop, hcfg, hrun⟩, ht⟩ := step_fetch_then_check hs h
  rcases loopCheck_cases u with ⟨hu, hgoes⟩ | ⟨hu, -, hstops⟩
  · obtain rfl := ht.trans hu
    obtain ⟨hop', hfatal⟩ : t.opcode ≠ t.cfg.opc.halt ∧ t.fatal = false := hgoes.resolve_left (by simp [hwait])
    rw [hcfg] at hop'
    exact ⟨hop, by simp [hrun, hop', hfatal], fun _ => ⟨hrun, hwait⟩⟩
  · obtain rfl := ht.trans hu
    rw [hcfg] at hstops
    exact ⟨hop, iff_of_true rfl hstops, by simp⟩

end Sys2Proof.Machine
end

section
/-! PROOFS. The arithmetic instructions (`41_arithmetic.md`). -/

namespace Sys2Proof.Machine

/-- R90: an exact result that is a signed 16-bit value goes to `ACC`, and the counter advances. -/
theorem commitAlu_narrow_of_inRange {r : Int} {s : State} (hr : InRange r) (hs : CanAdvance s) :
    commitAlu (narrow r) s = .next { s with acc := pat16 r, ic := s.ic + 1#8 } := by
  rw [narrow_of_inRange hr]
  exact advance_next hs

/-- R90, R164: any other exact result raises the fatal error, whether the counter can advance or not. -/
theorem commitAlu_narrow_of_outOfRange {r : Int} {s : State} (hr : ¬InRange r) :
    commitAlu (narrow r) s = .next (fatalState .accumulatorOverflow s) := by
  rw [narrow_of_outOfRange hr]
  rfl

/-- What ADD, SUB and MUL have in common: an instruction that commits its narrowed exact result `r` leaves that value
or overflows. -/
theorem exec_exactOrFatal {i : Instr} {s : State} {r : Int} (h : exec i s = commitAlu (narrow r) s) :
    (InRange r → CanAdvance s →
      exec i s = .next { s with acc := pat16 r, ic := s.ic + 1#8 } ∧ s16 (pat16 r) = r) ∧
      (¬InRange r → exec i s = .next (fatalState .accumulatorOverflow s)) :=
  ⟨fun hr hs => ⟨h.trans (commitAlu_narrow_of_inRange hr hs), s16_pat16 hr⟩,
    fun hr => h.trans (commitAlu_narrow_of_outOfRange hr)⟩

/-- Settles O14: each of the three commits its narrowed exact result, by its equation. -/
theorem addSubMulExactOrFatal : Obligations.AddSubMulExactOrFatal := by
  intro mk code n f hf a s r hr
  simp only [List.mem_cons, List.not_mem_nil, or_false, Prod.mk.injEq] at hf
  subst hr
  rcases hf with ⟨rfl, rfl, rfl, rfl⟩ | ⟨rfl, rfl, rfl, rfl⟩ | ⟨rfl, rfl, rfl, rfl⟩
  · exact ⟨⟨fun _ => rfl, rfl⟩, exec_exactOrFatal (exec_add a s)⟩
  · exact ⟨⟨fun _ => rfl, rfl⟩, exec_exactOrFatal (exec_sub a s)⟩
  · exact ⟨⟨fun _ => rfl, rfl⟩, exec_exactOrFatal (exec_mul a s)⟩

end Sys2Proof.Machine
end

section
/-! PROOFS. The logic instructions (`42_logic.md`). -/

namespace Sys2Proof.Machine

/-- The end of every instruction that writes `ACC` and completes (R13, R74): the new pattern, the increment, and
nothing else. -/
theorem advance_setAcc {s : State} (hs : CanAdvance s) (y : Word) :
    advance (s.setAcc y) = .next { s with acc := y, ic := s.ic + 1#8 } :=
  advance_next (s := s.setAcc y) hs

/-- What AND, ORR and XOR have in common: an instruction that puts `y` into `ACC` and advances acts bit by bit as `g`
does if `y` does. -/
theorem exec_bitByBit {i : Instr} {s : State} {m y : Word} {g : Bool → Bool → Bool}
    (h : exec i s = advance (s.setAcc y)) (hy : ∀ k, y.getLsbD k = g (s.acc.getLsbD k) (m.getLsbD k))
    (hs : CanAdvance s) :
    ∃ y : Word, exec i s = .next { s with acc := y, ic := s.ic + 1#8 } ∧
      ∀ k < 16, y.getLsbD k = g (s.acc.getLsbD k) (m.getLsbD k) :=
  ⟨y, h.trans (advance_setAcc hs y), fun k _ => hy k⟩

/-- Settles O19: each of the three commits the library's bitwise operation, by its equation. -/
theorem logicActsBitByBit : Obligations.LogicActsBitByBit := by
  intro mk code n g hg a s
  simp only [List.mem_cons, List.not_mem_nil, or_false, Prod.mk.injEq] at hg
  rcases hg with ⟨rfl, rfl, rfl, rfl⟩ | ⟨rfl, rfl, rfl, rfl⟩ | ⟨rfl, rfl, rfl, rfl⟩
  · exact ⟨⟨fun _ => rfl, rfl⟩, exec_bitByBit (exec_and a s) fun _ => BitVec.getLsbD_and⟩
  · exact ⟨⟨fun _ => rfl, rfl⟩, exec_bitByBit (exec_orr a s) fun _ => BitVec.getLsbD_or⟩
  · exact ⟨⟨fun _ => rfl, rfl⟩, exec_bitByBit (exec_xor a s) fun _ => BitVec.getLsbD_xor⟩

@[simp] theorem logicalNot_zero : logicalNot 0#16 = 1#16 := rfl

theorem logicalNot_of_ne_zero {w : Word} (h : w ≠ 0#16) : logicalNot w = 0#16 := if_neg h

/-- R104: NOT is not its own inverse. Twice, it keeps only whether the word was 0. -/
theorem logicalNot_logicalNot (w : Word) : logicalNot (logicalNot w) = if w = 0#16 then 0#16 else 1#16 := by
  split
  case isTrue h => rw [h, logicalNot_zero, logicalNot_of_ne_zero (by decide)]
  case isFalse h => rw [logicalNot_of_ne_zero h, logicalNot_zero]

theorem exec_not_next (a : Byte) {s : State} (hs : CanAdvance s) :
    exec (.not a) s = .next { s with acc := logicalNot s.acc, ic := s.ic + 1#8 } :=
  (exec_not a s).trans (advance_setAcc hs _)

/-- Settles O20, by the two values of the logical negation and its double. -/
theorem notIsLogical : Obligations.NotIsLogical := by
  intro a b s
  refine ⟨⟨fun _ => rfl, rfl⟩, fun hs hzero => ?_, fun hs hne => ?_, fun hwrap => ?_⟩
  · rw [exec_not_next a hs, hzero, logicalNot_zero]
  · rw [exec_not_next a hs, logicalNot_of_ne_zero hne]
  · exact ⟨_, _, exec_not_next a (.inl hwrap), exec_not_next b (.inl hwrap), logicalNot_logicalNot s.acc⟩

end Sys2Proof.Machine
end

section
/-! PROOFS. The shift instructions (`43_shift.md`). -/

namespace Sys2Proof.Machine

/-- R112: bit 15 is kept. -/
theorem asr1_getLsbD_fifteen (w : Word) : (asr1 w).getLsbD 15 = w.getLsbD 15 :=
  (getLsbD_one_append _ _ 15).trans (by simp)

/-- R112: every other bit takes its upper neighbour, so bit 14 takes bit 15. -/
theorem asr1_getLsbD_of_lt (w : Word) {i : Nat} (hi : i < 15) : (asr1 w).getLsbD i = w.getLsbD (i + 1) :=
  (getLsbD_one_append _ _ i).trans (by simp [hi, Nat.add_comm])

/-- R112: the shift of the pattern by one is the division of its value by 2, and both round toward minus infinity. -/
theorem s16_asr1 (w : Word) : s16 (asr1 w) = ⌊(s16 w : ℚ) / 2⌋ := by
  have hquot : s16 (asr1 w) = s16 w / 2 := by
    rw [asr1_eq, s16_eq_toInt, s16_eq_toInt, BitVec.toInt_sshiftRight, Int.shiftRight_eq_div_pow]
    rfl
  exact hquot.trans (Rat.floor_intCast_div_natCast (s16 w) 2).symm

/-- R112: the source's construction, which halves the complement of a negative word. -/
theorem asr1_eq_complements (w : Word) :
    asr1 w = if s16 w < 0 then ~~~(~~~w >>> 1) else w >>> 1 := by
  have hmsb : w.msb = decide (s16 w < 0) := s16_eq_toInt w ▸ BitVec.msb_eq_toInt
  rw [asr1_eq]
  split
  case isTrue h => exact BitVec.sshiftRight_eq_of_msb_true (by simp [hmsb, h])
  case isFalse h => exact BitVec.sshiftRight_eq_of_msb_false (by simpa [hmsb] using h)

theorem exec_asr_next (a : Byte) {s : State} (hs : CanAdvance s) :
    exec (.asr a) s = .next { s with acc := asr1 s.acc, ic := s.ic + 1#8 } :=
  (exec_asr a s).trans (advance_setAcc hs _)

/-- Settles O21: the pattern ASR commits, by its bits, its value and its construction. -/
theorem asrKeepsTheSign : Obligations.AsrKeepsTheSign := fun a s =>
  ⟨⟨fun _ => rfl, rfl⟩, fun hs =>
    ⟨asr1 s.acc, exec_asr_next a hs, asr1_getLsbD_fifteen s.acc, fun _ hi => asr1_getLsbD_of_lt s.acc hi,
      s16_asr1 s.acc, asr1_eq_complements s.acc⟩⟩

end Sys2Proof.Machine
end

section
/-! PROOFS. The branch instructions (`44_branch.md`). -/

namespace Sys2Proof.Machine

/-- What BNEG, BPOS and BZRO have in common (R120): an instruction that jumps on the wire `c` and advances otherwise
jumps exactly where the condition `p` of that wire holds. -/
theorem exec_jumpOrAdvance {i : Instr} {a : Byte} {s : State} {c : Bool} {p : Prop}
    (h : exec i s = if c then .next (s.setIc a) else advance s) (hc : c = true ↔ p) :
    (p → exec i s = .next { s with ic := a }) ∧
      (¬p → CanAdvance s → exec i s = .next { s with ic := s.ic + 1#8 }) := by
  refine ⟨fun hp => ?taken, fun hp hs => ?untaken⟩
  case taken => exact h.trans (if_pos (hc.mpr hp))
  case untaken => exact (h.trans (if_neg (mt hc.mp hp))).trans (advance_next hs)

/-- Settles O26: B by its equation, and each of the three by its equation and the meaning of its wire. -/
theorem branchesJumpOrAdvance : Obligations.BranchesJumpOrAdvance := by
  intro a s
  refine ⟨⟨⟨fun _ => rfl, rfl⟩, exec_b a s⟩, fun mk code n taken hf => ?_⟩
  simp only [List.mem_cons, List.not_mem_nil, or_false, Prod.mk.injEq] at hf
  rcases hf with ⟨rfl, rfl, rfl, rfl⟩ | ⟨rfl, rfl, rfl, rfl⟩ | ⟨rfl, rfl, rfl, rfl⟩
  · exact ⟨⟨fun _ => rfl, rfl⟩, exec_jumpOrAdvance (exec_bneg a s) (condN_iff s.acc)⟩
  · exact ⟨⟨fun _ => rfl, rfl⟩, exec_jumpOrAdvance (exec_bpos a s) (condP_iff s.acc)⟩
  · exact ⟨⟨fun _ => rfl, rfl⟩,
      exec_jumpOrAdvance (exec_bzro a s) ((condZ_iff s.acc).trans (s16_eq_zero s.acc).symm)⟩

end Sys2Proof.Machine
end

section
/-! PROOFS. The load and store instructions (`45_load_store.md`). -/

namespace Sys2Proof.Machine

/-- The end of every instruction that writes memory and completes (R13, R74): the written memory, the increment, and
nothing else. -/
theorem advance_writeMem {s : State} (hs : CanAdvance s) (a : Byte) (w : Word) :
    advance (s.writeMem a w) = .next { s with mem := Memory.write s.mem a w, ic := s.ic + 1#8 } :=
  advance_next (s := s.writeMem a w) hs

theorem exec_load_next (a : Byte) {s : State} (hs : CanAdvance s) :
    exec (.load a) s = .next { s with acc := Memory.read s.mem a, ic := s.ic + 1#8 } :=
  (exec_load a s).trans (advance_setAcc hs _)

theorem exec_stor_next (a : Byte) {s : State} (hs : CanAdvance s) :
    exec (.stor a) s = .next { s with mem := Memory.write s.mem a s.acc, ic := s.ic + 1#8 } :=
  (exec_stor a s).trans (advance_writeMem hs a _)

/-- Settles O28: LOAD commits the word read; STOR commits the written memory, whose every word `Memory.read_write`
gives. -/
theorem loadAndStorMoveWholeWords : Obligations.LoadAndStorMoveWholeWords := by
  intro a s hmem
  refine ⟨⟨fun _ => rfl, rfl⟩, ⟨fun _ => rfl, rfl⟩, fun hs => ⟨exec_load_next a hs, ?stor⟩⟩
  case stor => exact ⟨_, exec_stor_next a hs, rfl, fun b => Memory.read_write s.mem a b s.acc hmem⟩

end Sys2Proof.Machine
end

section
/-! PROOFS. The terminal instructions (`46_io.md`). -/

namespace Sys2Proof.Machine

/-- R143: what a freshly fetched READ with its integer at hand does before it judges it: the prompt, then the integer,
both in the trace. -/
theorem State.prompt_take {s : State} (hwait : s.waiting = false) (v : Int) (rest : List Int) :
    s.prompt.take v rest = { s with input := rest, trace := s.trace ++ [.prompt, .input v] } := by
  simp [State.prompt, State.take, State.emit, hwait]

theorem exec_read_of_inRange (a : Byte) {s : State} {v : Int} {rest : List Int} (hwait : s.waiting = false)
    (hinput : s.input = v :: rest) (hv : InRange v) (hs : CanAdvance s) :
    exec (.read a) s = .next { s with
      mem := Memory.write s.mem a (pat16 v), ic := s.ic + 1#8, input := rest,
      trace := s.trace ++ [.prompt, .input v] } := by
  rw [exec_read_some a s v rest hinput, if_pos ((inRange_iff v).mpr hv), State.prompt_take hwait]
  refine advance_writeMem ?canAdvance a (pat16 v)
  case canAdvance => exact hs

/-- A rejected READ does not advance, so no premise on the counter is needed. -/
theorem exec_read_of_outOfRange (a : Byte) {s : State} {v : Int} {rest : List Int} (hwait : s.waiting = false)
    (hinput : s.input = v :: rest) (hv : ¬InRange v) :
    exec (.read a) s = .next { s with
      input := rest, trace := s.trace ++ [.prompt, .input v, .readRangeWarning] } := by
  rw [exec_read_some a s v rest hinput, if_neg (mt (inRange_iff v).mp hv), State.prompt_take hwait]
  simp [State.emit]

/-- Settles O31, by the range check's two outcomes; `Memory.read_write` gives every word of the memory an accepted
integer is stored in. -/
theorem readTakesOneInteger : Obligations.ReadTakesOneInteger := by
  intro a s v rest hwait hinput hmem
  refine ⟨⟨fun _ => rfl, rfl⟩, fun hv hs => ?accepted, fun hv => ?rejected⟩
  case accepted =>
    exact ⟨_, exec_read_of_inRange a hwait hinput hv hs, rfl, fun b => Memory.read_write s.mem a b (pat16 v) hmem⟩
  case rejected => exact exec_read_of_outOfRange a hwait hinput hv

theorem exec_wrte_next (a : Byte) {s : State} (hs : CanAdvance s) :
    exec (.wrte a) s = .next { s with ic := s.ic + 1#8, trace := s.trace ++ [.out (Memory.read s.mem a)] } :=
  (exec_wrte a s).trans (advance_next hs)

/-- Settles O35: WRTE appends its one event and advances, by its equation. -/
theorem wrteEmitsTheWord : Obligations.WrteEmitsTheWord := fun a _ =>
  ⟨⟨fun _ => rfl, rfl⟩, exec_wrte_next a⟩

end Sys2Proof.Machine
end

section
/-! PROOFS. HALT and the end of its step (`47_halt_undefined.md`). -/

namespace Sys2Proof

/-- R57: a word that carries the number of a mnemonic decodes to that mnemonic's instruction. -/
theorem decode_of_code {opc : OpcodeMap} {w : Word} {m : Mnemonic} (hwf : opc.wf = true)
    (hw : opcodeOf w = opc.code m) : decode opc w = .instr (Instr.ofMnemonic m (operandOf w)) := by
  rw [decode, hw, mnemonicOf_code hwf]

end Sys2Proof

namespace Sys2Proof.Machine

/-- R81: the end of a step that leaves HALT's opcode latched stops the loop and writes nothing else, whatever `FATAL`
is. -/
theorem finish_next_of_halt {u : State} (hw : u.waiting = false) (hop : u.opcode = u.cfg.opc.halt) :
    finish (.next u) = .next { u with run := .stopped } := by
  rcases loopCheck_cases u with ⟨-, hgoes⟩ | ⟨hstops, -, -⟩
  · simp [hw, hop] at hgoes
  · exact congrArg Host.Outcome.next hstops

/-- R150: on a map that meets R5, the step that fetches a word with HALT's number only latches it and stops. -/
theorem step_of_halt {s : State} (hs : AboutToFetch s) (hwf : s.cfg.opc.wf = true)
    (hop : opcodeOf (Memory.read s.mem s.ic) = s.cfg.opc.halt) :
    step s = .next { fetched s with run := .stopped } := by
  have ⟨_, hwait⟩ := hs
  have hd := decode_of_code (m := .halt) hwf hop
  calc
    step s = finish (exec (.halt (operandOf (Memory.read s.mem s.ic))) s.latch) := step_of_instr hs hd
    _ = finish (.next s.latch) := by rw [exec_halt]
    _ = .next { fetched s with run := .stopped } := finish_next_of_halt hwait hop

/-- Settles O38: HALT hands on the state it is given, and the loop check after it finds HALT's opcode latched. -/
theorem haltStopsNormally : Obligations.HaltStopsNormally := fun a s =>
  ⟨⟨fun _ => rfl, rfl⟩, exec_halt a s, fun hs hwf hword =>
    step_of_halt hs hwf (hword.trans (OpcodeMap.code_halt hwf).symm)⟩

end Sys2Proof.Machine
end

section
/-! PROOFS. Which fatal error a step raises, and what it records (`60_exceptions.md`). -/

namespace Sys2Proof.Machine

/-! ### The ranges of quotient and remainder -/

/-- R96: the remainder is what the quotient's product leaves of the dividend. -/
theorem mul_quotient_add_remainder (rounding : DivRounding) (a b : Int) :
    b * quotient rounding a b + remainder rounding a b = a := add_sub_cancel _ _

/-- R96: under both roundings the remainder is smaller than the divisor. -/
theorem natAbs_remainder_lt (rounding : DivRounding) (a : Int) {b : Int} (hb : b ≠ 0) :
    (remainder rounding a b).natAbs < b.natAbs := by
  cases rounding with
  | truncate =>
    rw [remainder_truncate, Int.natAbs_tmod]
    exact Nat.mod_lt _ (Int.natAbs_pos.mpr hb)
  | floor =>
    rw [remainder_floor]
    rcases lt_or_gt_of_ne hb with hneg | hpos
    · have := fmod_bounds_of_neg a hneg
      omega
    · have := Int.fmod_nonneg_of_pos a hpos
      have := Int.fmod_lt_of_pos a hpos
      omega

/-- R95: MOD never overflows. -/
theorem remainder_inRange (rounding : DivRounding) (a : Int) {b : Int} (hb : b ≠ 0) (hrange : InRange b) :
    InRange (remainder rounding a b) := by
  have := natAbs_remainder_lt rounding a hb
  unfold InRange at *
  omega

/-- R94: of all signed 16-bit pairs only -32768 and -1 have a quotient out of range. A divisor of 1 or -1 leaves no
remainder; by any other the product with a quotient out of range would be too large. -/
theorem quotient_outOfRange_iff (rounding : DivRounding) {a b : Int} (ha : InRange a) (hb : InRange b) (hb0 : b ≠ 0) :
    ¬InRange (quotient rounding a b) ↔ a = -32768 ∧ b = -1 := by
  have hsum := mul_quotient_add_remainder rounding a b
  have hrem := natAbs_remainder_lt rounding a hb0
  generalize quotient rounding a b = q at *
  generalize remainder rounding a b = r at *
  unfold InRange at *
  by_cases hunit : b = 1 ∨ b = -1
  · rcases hunit with rfl | rfl <;> omega
  · have hproduct : 2 * q.natAbs ≤ (b * q).natAbs := by
      rw [Int.natAbs_mul]
      exact Nat.mul_le_mul_right _ (by omega)
    omega

/-! ### The errors of the ALU -/

theorem narrow_eq_fail_iff {r : Int} {c : FatalCause} :
    narrow r = .fail c ↔ c = .accumulatorOverflow ∧ ¬InRange r := by
  rcases narrow_cases r with ⟨h, hr⟩ | ⟨h, hr⟩
  · simp [h, InRange, hr]
  · simp [h, InRange, hr, eq_comm]

/-- R94, R95: the zero divisor comes before the range. -/
theorem checkDivisor_eq_fail_iff {m : Word} {r : Int} {c : FatalCause} :
    checkDivisor m r = .fail c ↔
      c = .divideByZero ∧ m = 0#16 ∨ c = .accumulatorOverflow ∧ m ≠ 0#16 ∧ ¬InRange r := by
  by_cases hm : m = 0#16
  · simp [checkDivisor, zeroDivisor, hm, eq_comm]
  · simp [checkDivisor, zeroDivisor, hm, narrow_eq_fail_iff]

theorem checkDivisor_quotient_eq_fail_iff {rounding : DivRounding} {a m : Word} {c : FatalCause} :
    checkDivisor m (quotient rounding (s16 a) (s16 m)) = .fail c ↔
      c = .divideByZero ∧ m = 0#16 ∨ c = .accumulatorOverflow ∧ s16 a = -32768 ∧ s16 m = -1 := by
  rw [checkDivisor_eq_fail_iff]
  by_cases hm : m = 0#16
  · simp [hm, s16_zero]
  · simp [hm, quotient_outOfRange_iff rounding (s16_bounds a) (s16_bounds m) (s16_ne_zero hm)]

theorem checkDivisor_remainder_eq_fail_iff {rounding : DivRounding} {a m : Word} {c : FatalCause} :
    checkDivisor m (remainder rounding (s16 a) (s16 m)) = .fail c ↔ c = .divideByZero ∧ m = 0#16 := by
  rw [checkDivisor_eq_fail_iff]
  by_cases hm : m = 0#16
  · simp [hm]
  · simp [hm, remainder_inRange rounding (s16 a) (s16_ne_zero hm) (s16_bounds m)]

/-! ### The error an instruction raises -/

/-- The outcome is a next state that shows the cause `c`. -/
def Raises (c : FatalCause) (o : Host.Outcome State Fault Refusal) : Prop := ∃ t, o = .next t ∧ t.cause = some c

@[simp] theorem raises_raiseFatal_iff {s : State} {c d : FatalCause} : Raises c (.next (s.raiseFatal d)) ↔ d = c := by
  simp [Raises]

section
variable {s : State} {c : FatalCause} (hs : s.cause = none)
include hs

/-- An ALU arm raises just the error of the ALU. -/
theorem raises_commitAlu_iff {r : AluResult} : Raises c (commitAlu r s) ↔ r = .fail c := by
  constructor
  · rintro ⟨t, h, ht⟩
    rcases commitAlu_cases h with ⟨y, -, rfl⟩ | ⟨d, hr, rfl⟩
    · simp [hs] at ht
    · rw [hr, Option.some.inj ht]
  · rintro rfl
    exact raises_raiseFatal_iff.mpr rfl

/-- R164: an instruction that leaves a cause where there was none is arithmetic, and did nothing but raise it. -/
theorem eq_raiseFatal_of_exec {i : Instr} {t : State} (h : exec i s = .next t) (ht : t.cause = some c) :
    i.isArithmetic = true ∧ c ≠ .undefinedOpcode ∧ t = s.raiseFatal c := by
  rcases exec_cases h with ⟨hi, d, hd, rfl⟩ | ⟨-, y, rfl⟩ | ⟨x, -, -, rfl⟩ | ⟨a, -, rfl⟩ |
    ⟨a, -, -, rfl⟩ | ⟨a, v, rest, -, -, -, rfl⟩ | ⟨a, v, rest, -, -, -, rfl⟩ | ⟨a, -, rfl⟩ | ⟨a, -, rfl⟩
  case inl =>
    obtain rfl : d = c := Option.some.inj ht
    exact ⟨hi, hd, rfl⟩
  all_goals simp [hs] at ht

/-- R163: no instruction raises UNDEFINED_OPCODE. -/
theorem isArithmetic_and_ne_undefined_of_raises {i : Instr} (h : Raises c (exec i s)) :
    i.isArithmetic = true ∧ c ≠ .undefinedOpcode := by
  obtain ⟨t, ht, hc⟩ := h
  obtain ⟨hi, hne, -⟩ := eq_raiseFatal_of_exec hs ht hc
  exact ⟨hi, hne⟩

theorem raises_exec_add_iff (a : Byte) : Raises c (exec (.add a) s) ↔
    c = .accumulatorOverflow ∧ ¬InRange (s16 s.acc + s16 (Memory.read s.mem a)) := by
  rw [exec_add, raises_commitAlu_iff hs, narrow_eq_fail_iff]

theorem raises_exec_sub_iff (a : Byte) : Raises c (exec (.sub a) s) ↔
    c = .accumulatorOverflow ∧ ¬InRange (s16 s.acc - s16 (Memory.read s.mem a)) := by
  rw [exec_sub, raises_commitAlu_iff hs, narrow_eq_fail_iff]

theorem raises_exec_mul_iff (a : Byte) : Raises c (exec (.mul a) s) ↔
    c = .accumulatorOverflow ∧ ¬InRange (s16 s.acc * s16 (Memory.read s.mem a)) := by
  rw [exec_mul, raises_commitAlu_iff hs, narrow_eq_fail_iff]

theorem raises_exec_div_iff (a : Byte) : Raises c (exec (.div a) s) ↔
    c = .divideByZero ∧ Memory.read s.mem a = 0#16 ∨
      c = .accumulatorOverflow ∧ s16 s.acc = -32768 ∧ s16 (Memory.read s.mem a) = -1 := by
  rw [exec_div, raises_commitAlu_iff hs, checkDivisor_quotient_eq_fail_iff]

theorem raises_exec_mod_iff (a : Byte) : Raises c (exec (.mod a) s) ↔
    c = .divideByZero ∧ Memory.read s.mem a = 0#16 := by
  rw [exec_mod, raises_commitAlu_iff hs, checkDivisor_remainder_eq_fail_iff]

/-- R162: only DIV and MOD divide. -/
theorem raises_divideByZero_exec_iff {i : Instr} : Raises .divideByZero (exec i s) ↔
    ∃ a, (i = .div a ∨ i = .mod a) ∧ Memory.read s.mem a = 0#16 := by
  constructor
  · intro h
    obtain ⟨hi, -⟩ := isArithmetic_and_ne_undefined_of_raises hs h
    cases i with
    | add a => simp [raises_exec_add_iff hs] at h
    | sub a => simp [raises_exec_sub_iff hs] at h
    | mul a => simp [raises_exec_mul_iff hs] at h
    | div a => exact ⟨a, .inl rfl, by simpa [raises_exec_div_iff hs] using h⟩
    | mod a => exact ⟨a, .inr rfl, by simpa [raises_exec_mod_iff hs] using h⟩
    | _ => cases hi
  · rintro ⟨a, rfl | rfl, hm⟩
    · exact (raises_exec_div_iff hs a).mpr (.inl ⟨rfl, hm⟩)
    · exact (raises_exec_mod_iff hs a).mpr ⟨rfl, hm⟩

/-- R161: MOD is not among the four, by `remainder_inRange`. -/
theorem raises_accumulatorOverflow_exec_iff {i : Instr} : Raises .accumulatorOverflow (exec i s) ↔
    ∃ a, i = .add a ∧ ¬InRange (s16 s.acc + s16 (Memory.read s.mem a)) ∨
      i = .sub a ∧ ¬InRange (s16 s.acc - s16 (Memory.read s.mem a)) ∨
      i = .mul a ∧ ¬InRange (s16 s.acc * s16 (Memory.read s.mem a)) ∨
      i = .div a ∧ s16 s.acc = -32768 ∧ s16 (Memory.read s.mem a) = -1 := by
  constructor
  · intro h
    obtain ⟨hi, -⟩ := isArithmetic_and_ne_undefined_of_raises hs h
    cases i with
    | add a => exact ⟨a, .inl ⟨rfl, ((raises_exec_add_iff hs a).mp h).2⟩⟩
    | sub a => exact ⟨a, .inr (.inl ⟨rfl, ((raises_exec_sub_iff hs a).mp h).2⟩)⟩
    | mul a => exact ⟨a, .inr (.inr (.inl ⟨rfl, ((raises_exec_mul_iff hs a).mp h).2⟩))⟩
    | div a => exact ⟨a, .inr (.inr (.inr ⟨rfl, by simpa [raises_exec_div_iff hs] using h⟩))⟩
    | mod a => simp [raises_exec_mod_iff hs] at h
    | _ => cases hi
  · rintro ⟨a, ⟨rfl, hr⟩ | ⟨rfl, hr⟩ | ⟨rfl, hr⟩ | ⟨rfl, hr⟩⟩
    · exact (raises_exec_add_iff hs a).mpr ⟨rfl, hr⟩
    · exact (raises_exec_sub_iff hs a).mpr ⟨rfl, hr⟩
    · exact (raises_exec_mul_iff hs a).mpr ⟨rfl, hr⟩
    · exact (raises_exec_div_iff hs a).mpr (.inr ⟨rfl, hr⟩)

end

/-! ### The error a step raises -/

/-- The loop check leaves the cause as it is. -/
theorem raises_finish_iff {c : FatalCause} {o : Host.Outcome State Fault Refusal} :
    Raises c (finish o) ↔ Raises c o := by
  constructor
  · rintro ⟨t, h, ht⟩
    obtain ⟨u, rfl, rfl⟩ := finish_next h
    exact ⟨u, rfl, by split at ht <;> simpa using ht⟩
  · rintro ⟨u, rfl, hu⟩
    exact ⟨_, rfl, by split <;> simpa using hu⟩

section
variable {s : State} {c : FatalCause} (hfetch : AboutToFetch s)
include hfetch

/-- R163: the step of a word that is no instruction raises UNDEFINED_OPCODE and nothing else. -/
theorem step_of_undefined {x y : Byte} (hd : decode s.cfg.opc (Memory.read s.mem s.ic) = .undefined x y) :
    step s = finish (.next (s.latch.raiseFatal .undefinedOpcode)) := by
  rw [step_of_aboutToFetch hfetch, fetchAndExecute, State.latch_ir, hd]
  rfl

/-- A step raises an error through its instruction, or UNDEFINED_OPCODE without one. -/
theorem raises_step_iff : Raises c (step s) ↔
    (∃ i, decode s.cfg.opc (Memory.read s.mem s.ic) = .instr i ∧ Raises c (exec i s.latch)) ∨
      ∃ x y, decode s.cfg.opc (Memory.read s.mem s.ic) = .undefined x y ∧ c = .undefinedOpcode := by
  cases hd : decode s.cfg.opc (Memory.read s.mem s.ic) with
  | instr i => simp [step_of_instr hfetch hd, raises_finish_iff]
  | undefined x y => simp [step_of_undefined hfetch hd, raises_finish_iff, eq_comm]

variable (hcause : s.cause = none)
include hcause

theorem raises_undefinedOpcode_step_iff : Raises .undefinedOpcode (step s) ↔
    ∀ m, s.cfg.opc.code m ≠ opcodeOf (Memory.read s.mem s.ic) := by
  rw [raises_step_iff hfetch]
  cases hd : decode s.cfg.opc (Memory.read s.mem s.ic) with
  | instr i =>
    have hno : ¬Raises .undefinedOpcode (exec i s.latch) := fun h =>
      (isArithmetic_and_ne_undefined_of_raises (s := s.latch) hcause h).2 rfl
    obtain ⟨hcode, -⟩ := decode_eq_instr hd
    simpa [hno] using ⟨i.mnemonic, hcode⟩
  | undefined x y =>
    obtain ⟨hcode, rfl, -⟩ := decode_eq_undefined hd
    simpa using hcode

theorem raises_divideByZero_step_iff : Raises .divideByZero (step s) ↔
    ∃ a, (decode s.cfg.opc (Memory.read s.mem s.ic) = .instr (.div a) ∨
      decode s.cfg.opc (Memory.read s.mem s.ic) = .instr (.mod a)) ∧ Memory.read s.mem a = 0#16 := by
  simp only [raises_step_iff hfetch, reduceCtorEq, and_false, exists_false, or_false,
    raises_divideByZero_exec_iff (s := s.latch) hcause, State.latch_mem]
  constructor
  · rintro ⟨i, hd, a, rfl | rfl, hm⟩
    · exact ⟨a, .inl hd, hm⟩
    · exact ⟨a, .inr hd, hm⟩
  · rintro ⟨a, hd | hd, hm⟩
    · exact ⟨_, hd, a, .inl rfl, hm⟩
    · exact ⟨_, hd, a, .inr rfl, hm⟩

theorem raises_accumulatorOverflow_step_iff : Raises .accumulatorOverflow (step s) ↔
    ∃ a i, decode s.cfg.opc (Memory.read s.mem s.ic) = .instr i ∧
      (i = .add a ∧ ¬InRange (s16 s.acc + s16 (Memory.read s.mem a)) ∨
        i = .sub a ∧ ¬InRange (s16 s.acc - s16 (Memory.read s.mem a)) ∨
        i = .mul a ∧ ¬InRange (s16 s.acc * s16 (Memory.read s.mem a)) ∨
        i = .div a ∧ s16 s.acc = -32768 ∧ s16 (Memory.read s.mem a) = -1) := by
  simp only [raises_step_iff hfetch, reduceCtorEq, and_false, exists_false, or_false,
    raises_accumulatorOverflow_exec_iff (s := s.latch) hcause, State.latch_mem, State.latch_acc]
  exact ⟨fun ⟨i, hd, a, h⟩ => ⟨a, i, hd, h⟩, fun ⟨a, i, hd, h⟩ => ⟨i, hd, a, h⟩⟩

/-- R164: the state of a step that raises an error. -/
theorem step_eq_raiseFatal {t : State} (h : step s = .next t) (ht : t.cause = some c) :
    t = (s.latch.raiseFatal c).loopCheck := by
  obtain ⟨-, hwait⟩ := hfetch
  rcases step_cases h with ⟨-, rfl⟩ | ⟨-, hw, -⟩ | ⟨-, -, i, u, -, hu, rfl⟩ | ⟨-, -, x, y, -, rfl⟩
  · rw [hcause] at ht
    cases ht
  · rw [hwait] at hw
    cases hw
  · have hc : u.cause = some c := by split at ht <;> simpa using ht
    obtain ⟨-, -, rfl⟩ := eq_raiseFatal_of_exec (s := s.latch) hcause hu hc
    simp [hwait]
  · obtain rfl : FatalCause.undefinedOpcode = c := by simpa using ht
    rfl

end

/-- Settles O41: each cause by what the step's instruction raises, and the record by the one state a raising step
leaves. -/
theorem fatalCausesExactly : Obligations.FatalCausesExactly := by
  intro s hfetch hcause
  refine ⟨raises_undefinedOpcode_step_iff hfetch hcause, raises_divideByZero_step_iff hfetch hcause,
    raises_accumulatorOverflow_step_iff hfetch hcause, fun t c h ht => ?recorded⟩
  case recorded =>
    obtain rfl := step_eq_raiseFatal hfetch hcause h ht
    cases c <;> simp [levels, causeCode]

end Sys2Proof.Machine
end

section
/-! PROOFS. Decoder and encoder as inverses of each other, the count of the undefined encodings, and the words written
out bit by bit (`30_encoding.md`). -/

namespace Sys2Proof

/-- R57: `enc(m, a) = OPC(m) * 256 + a`. -/
theorem encode_toNat (opc : OpcodeMap) (i : Instr) :
    (encode opc i).toNat = (opc.code i.mnemonic).toNat * 256 + i.operand.toNat := by
  rw [toNat_eq_halves, encode, opcodeOf_wordOf, operandOf_wordOf]

theorem decode_encode {opc : OpcodeMap} (hwf : opc.wf = true) (i : Instr) : decode opc (encode opc i) = .instr i := by
  obtain ⟨hopcode, hoperand⟩ := Laws.Encoding.any i opc
  rw [decode_of_code hwf hopcode, hoperand, Instr.ofMnemonic_eta]

/-- This half needs nothing of the map: the decoder loses no bit of the word. -/
theorem encode_of_decode {opc : OpcodeMap} {w : Word} {i : Instr} (hd : decode opc w = .instr i) :
    encode opc i = w := by
  obtain ⟨hcode, hoperand⟩ := decode_eq_instr hd
  rw [encode, hcode, hoperand, wordOf_halves]

theorem decode_eq_undefined_iff {opc : OpcodeMap} {w : Word} {x y : Byte} :
    decode opc w = .undefined x y ↔ (∀ m, opc.code m ≠ opcodeOf w) ∧ x = opcodeOf w ∧ y = operandOf w := by
  constructor
  · intro hd
    obtain ⟨hcode, rfl, hy⟩ := decode_eq_undefined hd
    exact ⟨hcode, rfl, hy⟩
  · rintro ⟨hcode, rfl, rfl⟩
    rw [decode, mnemonicOf_eq_none.mpr hcode]

/-- Settles O8: the encoder's number and both round trips by the halves of a word, UNDEFINED by what the lookup does not
find. -/
theorem decodeInvertsEncode : Obligations.DecodeInvertsEncode := fun opc hwf =>
  ⟨encode_toNat opc, decode_encode hwf, fun _ _ => encode_of_decode, fun _ _ _ => decode_eq_undefined_iff⟩

/-! ### Counting the undefined encodings -/

/-- The opcode values no mnemonic has, as numbers. -/
def undefinedOpcodes (opc : OpcodeMap) : Finset (Fin 256) :=
  Finset.univ.filter fun x => mnemonicOf opc (BitVec.ofFin x) = none

/-- The opcode values of the mnemonics (R55), as numbers. -/
def definedOpcodes (opc : OpcodeMap) : Finset (Fin 256) :=
  (Mnemonic.all.map fun m => (opc.code m).toFin).toFinset

theorem mem_definedOpcodes {opc : OpcodeMap} {x : Fin 256} :
    x ∈ definedOpcodes opc ↔ ∃ m, opc.code m = BitVec.ofFin x := by
  have hcode : ∀ m, (opc.code m).toFin = x ↔ opc.code m = BitVec.ofFin x := fun m =>
    ⟨fun h => h ▸ rfl, fun h => h ▸ rfl⟩
  simp only [definedOpcodes, List.mem_toFinset, List.mem_map, Mnemonic.mem_all, true_and, hcode]

/-- R5: 21 mnemonics, no two with one number. -/
theorem card_definedOpcodes {opc : OpcodeMap} (hwf : opc.wf = true) : (definedOpcodes opc).card = 21 := by
  refine (List.toFinset_card_of_nodup (List.Nodup.map_on ?inj ?nodup)).trans ?length
  case inj => exact fun m _ m' _ h => OpcodeMap.code_inj hwf (BitVec.toFin_inj.mp h)
  case nodup => decide
  case length => exact List.length_map _

theorem undefinedOpcodes_eq_compl (opc : OpcodeMap) : undefinedOpcodes opc = (definedOpcodes opc)ᶜ := by
  ext x
  simp [undefinedOpcodes, mem_definedOpcodes, mnemonicOf_eq_none]

theorem card_undefinedOpcodes {opc : OpcodeMap} (hwf : opc.wf = true) : (undefinedOpcodes opc).card = 235 := by
  rw [undefinedOpcodes_eq_compl, Finset.card_compl, card_definedOpcodes hwf, Fintype.card_fin]

/-- R51: the words, as numbers, are the pairs of an opcode value and an operand. -/
def wordsEquivHalves : Fin 256 × Fin 256 ≃ Fin 65536 := finProdFinEquiv

theorem opcodeOf_wordsEquivHalves (p : Fin 256 × Fin 256) :
    opcodeOf (BitVec.ofFin (wordsEquivHalves p)) = BitVec.ofFin p.1 := by
  have hval : (wordsEquivHalves p).val = p.2.val + 256 * p.1.val := rfl
  have := p.2.isLt
  apply BitVec.eq_of_toNat_eq
  rw [opcodeOf_toNat, BitVec.toNat_ofFin, BitVec.toNat_ofFin, hval]
  omega

/-- Each undefined opcode value makes 256 undefined words, one for each operand. -/
theorem card_undefinedWords (opc : OpcodeMap) :
    (Finset.univ.filter fun n : Fin 65536 => mnemonicOf opc (opcodeOf (BitVec.ofFin n)) = none).card =
      (undefinedOpcodes opc).card * 256 := by
  have hpairs :
      (undefinedOpcodes opc ×ˢ (Finset.univ : Finset (Fin 256))).card = (undefinedOpcodes opc).card * 256 := by
    rw [Finset.card_product, Finset.card_univ, Fintype.card_fin]
  refine (Finset.card_equiv wordsEquivHalves fun p => ?_).symm.trans hpairs
  simp [undefinedOpcodes, opcodeOf_wordsEquivHalves]

/-- Settles O9: the 21 numbers of an admissible map are distinct, and every opcode value stands in 256 words. -/
theorem undefinedEncodingsCounted : Obligations.UndefinedEncodingsCounted := fun opc hwf =>
  ⟨card_undefinedOpcodes hwf, by rw [card_undefinedWords, card_undefinedOpcodes hwf]⟩

/-- Settles O7, by evaluation of the decoder at the ten words. -/
theorem wordsDecodeAsWritten : Obligations.WordsDecodeAsWritten := by
  unfold Obligations.WordsDecodeAsWritten
  decide

end Sys2Proof
end

section
/-! PROOFS. What each instruction writes and what it leaves (`10_state.md`, `40_sequencer_and_dispatch.md`). -/

namespace Sys2Proof

/-- R10: the instructions that write `ACC`, by mnemonic. -/
theorem Instr.writesAcc_iff (i : Instr) : i.writesAcc = true ↔
    i.mnemonic ∈ [Mnemonic.add, .sub, .mul, .div, .mod, .and, .orr, .xor, .not, .lsr, .asr, .lsl, .load] := by
  cases i <;> simp [Instr.writesAcc, Instr.mnemonic]

theorem Instr.isArithmetic_iff (i : Instr) :
    i.isArithmetic = true ↔ i.mnemonic ∈ [Mnemonic.add, .sub, .mul, .div, .mod] := by
  cases i <;> simp [Instr.isArithmetic, Instr.mnemonic]

/-- The branches and HALT write no accumulator and raise nothing. -/
theorem Instr.kind_of_branch_or_halt {i : Instr} (hi : i.mnemonic ∈ [Mnemonic.b, .bneg, .bpos, .bzro, .halt]) :
    i.writesAcc = false ∧ i.isArithmetic = false := by
  cases i <;> simp [Instr.mnemonic, Instr.writesAcc, Instr.isArithmetic] at hi ⊢

end Sys2Proof

namespace Sys2Proof.Machine

/-- Settles O47, by everything an instruction can do. -/
theorem stateWrittenOnlyAsListed : Obligations.StateWrittenOnlyAsListed := by
  intro i s t h
  rcases exec_cases h with ⟨hi, c, -, rfl⟩ | ⟨hi, y, rfl⟩ | ⟨x, -, -, rfl⟩ | ⟨a, rfl, rfl⟩ | ⟨a, rfl, -, rfl⟩ |
    ⟨a, v, rest, rfl, -, -, rfl⟩ | ⟨a, v, rest, rfl, -, -, rfl⟩ | ⟨a, rfl, rfl⟩ | ⟨a, rfl, rfl⟩
  case inl => simp [hi]
  case inr.inl => simp [hi]
  all_goals simp [Instr.writesMem, Instr.mnemonic]

/-- The instructions that write `ACC` have two outcomes: the write, and for the arithmetic ones the fatal error. -/
theorem exec_cases_of_writesAcc {i : Instr} {s t : State} (hi : i.writesAcc = true) (h : exec i s = .next t) :
    (i.isArithmetic = true ∧ ∃ c, t = s.raiseFatal c) ∨ ∃ y, t = (s.setAcc y).setIc (s.ic + 1#8) := by
  rcases exec_cases h with ⟨harith, c, -, ht⟩ | ⟨-, hy⟩ | ⟨x, hbranch, -, -⟩ | ⟨a, rfl, -⟩ | ⟨a, rfl, -⟩ |
    ⟨a, v, rest, rfl, -⟩ | ⟨a, v, rest, rfl, -⟩ | ⟨a, rfl, -⟩ | ⟨a, rfl, -⟩
  case inl => exact .inl ⟨harith, c, ht⟩
  case inr.inl => exact .inr hy
  case inr.inr.inl =>
    obtain ⟨hacc, -⟩ := Instr.kind_of_branch_or_halt (List.mem_append_left [.halt] hbranch)
    exact Bool.noConfusion (hacc.symm.trans hi)
  all_goals cases hi

/-- Settles O48, by the two outcomes of these instructions, neither of which writes memory. -/
theorem frameOfAccumulatorForms : Obligations.FrameOfAccumulatorForms := by
  intro i s t hi h
  rcases exec_cases_of_writesAcc ((Instr.writesAcc_iff i).mpr hi) h with ⟨harith, c, rfl⟩ | ⟨y, rfl⟩
  · exact ⟨fun _ => rfl, .inr ⟨(Instr.isArithmetic_iff i).mp harith, rfl⟩⟩
  · exact ⟨fun _ => rfl, .inl rfl⟩

/-- R120: a branch writes `IC` alone. -/
theorem eq_setIc_of_branchIf {c : Bool} {a : Byte} {s t : State} (h : branchIf c a s = .next t) :
    t = s.setIc (if c then a else s.ic + 1#8) := by
  cases c with
  | true => exact (Host.Outcome.next.inj h).symm
  | false => exact eq_of_advance h

/-- Settles O49: the branches by the one end they have, HALT by its equation. -/
theorem frameOfBranchesAndHalt : Obligations.FrameOfBranchesAndHalt := by
  intro i s t hi h
  cases i with
  | b a =>
    obtain rfl := Host.Outcome.next.inj ((exec_b a s).symm.trans h)
    exact ⟨rfl, fun _ => rfl, by simp [Instr.mnemonic]⟩
  | bneg a | bpos a | bzro a =>
    obtain rfl := eq_setIc_of_branchIf h
    exact ⟨rfl, fun _ => rfl, by simp [Instr.mnemonic]⟩
  | halt a =>
    obtain rfl := Host.Outcome.next.inj ((exec_halt a s).symm.trans h)
    exact ⟨rfl, fun _ => rfl, fun _ => rfl⟩
  | _ => simp [Instr.mnemonic] at hi

/-- Settles O51: WRTE's event and the increment. -/
theorem frameOfWrte : Obligations.FrameOfWrte := by
  intro a s t h
  obtain rfl := eq_of_advance ((exec_wrte a s).symm.trans h)
  exact ⟨rfl, fun _ => rfl⟩

end Sys2Proof.Machine
end

section
/-! PROOFS. The frame of the instructions that write memory (`45_load_store.md`, `46_io.md`), and the instructions that
do not look at their operand field (`30_encoding.md` rule R54). -/

namespace Sys2Proof.Machine

theorem Memory.read_write_of_ne {m : Memory} {a b : Byte} (w : Word) (hm : Memory.wf m = true) (hb : b ≠ a) :
    Memory.read (Memory.write m a w) b = Memory.read m b :=
  (Memory.read_write m a b w hm).trans (if_neg hb)

theorem State.prompt_eq (s : State) : s.prompt = { s with trace := s.prompt.trace } := by
  unfold State.prompt
  split <;> rfl

/-- All that READ answers as a next state: it waits, it stores the integer, or it rejects it. -/
theorem exec_read_cases {a : Byte} {s t : State} (h : exec (.read a) s = .next t) :
    (s.input = [] ∧ t = s.prompt.wait) ∨
      ∃ v rest, s.input = v :: rest ∧
        (InRange v ∧ t = ((s.prompt.take v rest).writeMem a (pat16 v)).setIc (s.ic + 1#8) ∨
          ¬InRange v ∧ t = (s.prompt.take v rest).emit .readRangeWarning) := by
  cases hin : s.input with
  | nil =>
    rw [exec_read_none a s hin] at h
    exact .inl ⟨rfl, (Host.Outcome.next.inj h).symm⟩
  | cons v rest =>
    rw [exec_read_some a s v rest hin] at h
    refine .inr ⟨v, rest, rfl, ?_⟩
    split at h
    case isTrue hv => exact .inl ⟨(inRange_iff v).mp hv, by simpa using eq_of_advance h⟩
    case isFalse hv => exact .inr ⟨mt (inRange_iff v).mpr hv, (Host.Outcome.next.inj h).symm⟩

/-- Settles O50: STOR by its one outcome, READ by its three, of which only the accepted integer's writes memory. -/
theorem frameOfMemoryWriters : Obligations.FrameOfMemoryWriters := by
  intro i a s t hi hmem h
  simp only [List.mem_cons, List.not_mem_nil, or_false] at hi
  rcases hi with rfl | rfl
  · obtain rfl := eq_of_advance ((exec_stor a s).symm.trans h)
    exact ⟨fun b hb => Memory.read_write_of_ne _ hmem hb, rfl, fun _ => ⟨rfl, rfl, rfl⟩, by simp⟩
  · rcases exec_read_cases h with ⟨-, rfl⟩ | ⟨v, rest, hin, ⟨hv, rfl⟩ | ⟨-, rfl⟩⟩
    case inl => exact ⟨by simp, by rw [State.prompt_eq]; rfl, by simp, by simp⟩
    case inr.inl =>
      refine ⟨fun b hb => ?_, by rw [State.prompt_eq]; rfl, by simp, fun _ hno => absurd hv (hno v (by simp [hin]))⟩
      simpa using Memory.read_write_of_ne (a := a) _ hmem hb
    case inr.inr => exact ⟨by simp, by rw [State.prompt_eq]; rfl, by simp, by simp⟩

/-- Settles O24: the meanings of the five do not mention their operand field. -/
theorem ignoredOperandBitsHaveNoEffect : Obligations.IgnoredOperandBitsHaveNoEffect := by
  intro mk hmk a b s
  simp only [List.mem_cons, List.not_mem_nil, or_false] at hmk
  rcases hmk with rfl | rfl | rfl | rfl | rfl
  · rw [exec_not, exec_not]
  · rw [exec_lsr, exec_lsr]
  · rw [exec_asr, exec_asr]
  · rw [exec_lsl, exec_lsl]
  · rw [exec_halt, exec_halt]

end Sys2Proof.Machine
end

section
/-! PROOFS. The increment of the counter: where it comes, where it wraps and where the model refuses it (`10_state.md`
rules R13 and R14). -/

namespace Sys2Proof.Machine

/-- The instructions that always complete by the increment do so on a state that has the registers of `s` other than
`ACC`, and its trace but for WRTE's event. -/
theorem exec_eq_advance {i : Instr} (s : State)
    (hi : i.mnemonic ∈ [Mnemonic.and, .orr, .xor, .not, .lsr, .asr, .lsl, .load, .stor, .wrte]) :
    ∃ u, exec i s = advance u ∧ (u.ic = s.ic ∧ u.cfg = s.cfg ∧ u.fatal = s.fatal ∧ u.cause = s.cause ∧ u.run = s.run) ∧
      (u.trace = s.trace ∨ ∃ w, i.mnemonic = .wrte ∧ u.trace = s.trace ++ [.out w]) := by
  cases i with
  | and a => exact ⟨_, exec_and a s, by simp, .inl rfl⟩
  | orr a => exact ⟨_, exec_orr a s, by simp, .inl rfl⟩
  | xor a => exact ⟨_, exec_xor a s, by simp, .inl rfl⟩
  | not a => exact ⟨_, exec_not a s, by simp, .inl rfl⟩
  | lsr a => exact ⟨_, exec_lsr a s, by simp, .inl rfl⟩
  | asr a => exact ⟨_, exec_asr a s, by simp, .inl rfl⟩
  | lsl a => exact ⟨_, exec_lsl a s, by simp, .inl rfl⟩
  | load a => exact ⟨_, exec_load a s, by simp, .inl rfl⟩
  | stor a => exact ⟨_, exec_stor a s, by simp, .inl rfl⟩
  | wrte a => exact ⟨_, exec_wrte a s, by simp, .inr ⟨_, rfl, rfl⟩⟩
  | _ => simp [Instr.mnemonic] at hi

theorem toNat_succ_of_ne_255 {x : Byte} (h : x ≠ 0xFF#8) : (x + 1#8).toNat = x.toNat + 1 := by
  have hne : x.toNat ≠ 255 := fun hx => h (BitVec.eq_of_toNat_eq hx)
  have := x.isLt
  rw [BitVec.toNat_add]
  simp only [BitVec.toNat_ofNat]
  omega

/-- Settles O11: these instructions end in the increment, which writes `IC` alone. -/
theorem counterWrapsSilently : Obligations.CounterWrapsSilently := by
  refine ⟨rfl, fun i s hi => ?_⟩
  obtain ⟨u, hexec, ⟨hic, hcfg, hfatal, hcause, hrun⟩, htrace⟩ := exec_eq_advance s hi
  refine ⟨fun hne => ⟨_, hexec.trans (advance_next (.inr (hic ▸ hne))), ?below⟩, fun hlast hwrap =>
    ⟨_, hexec.trans (advance_next (.inl (hcfg ▸ hwrap))), ?wraps, hfatal, hcause, hrun, htrace⟩⟩
  case below => simpa [hic] using toNat_succ_of_ne_255 hne
  case wraps => simp [hic, hlast]

section
variable {s : State} (hwrap : s.cfg.icWrap = .fault) (hic : s.ic = 0xFF#8)
include hwrap hic

/-- An ALU arm at the refused increment is refused unless its fatal error keeps it from the increment. -/
theorem commitAlu_refused_iff {r : AluResult} : commitAlu r s = .refused .counterWraps ↔ ∀ c, r ≠ .fail c := by
  cases r with
  | value y => exact iff_of_true (advance_refused (s := s.setAcc y) hwrap hic) (by simp)
  | fail c => simp [commitAlu]

/-- A branch at the refused increment is refused unless it is taken. -/
theorem branch_refused_iff {c : Bool} {a : Byte} :
    (if c then .next (s.setIc a) else advance s) = Host.Outcome.refused Refusal.counterWraps ↔ c = false := by
  cases c <;> simp [advance_refused hwrap hic]

theorem commitAlu_narrow_refused_iff {r : Int} : commitAlu (narrow r) s = .refused .counterWraps ↔ InRange r := by
  simp [commitAlu_refused_iff hwrap hic, narrow_eq_fail_iff]

/-- READ at the refused increment is refused where it would store. -/
theorem exec_read_refused_iff (a : Byte) :
    exec (.read a) s = .refused .counterWraps ↔ ∃ v rest, s.input = v :: rest ∧ InRange v := by
  cases hin : s.input with
  | nil => simp [exec_read_none a s hin]
  | cons v rest =>
    have hadv : advance ((s.prompt.take v rest).writeMem a (pat16 v)) = .refused .counterWraps :=
      advance_refused (by simpa using hwrap) (by simpa using hic)
    rw [exec_read_some a s v rest hin, hadv]
    by_cases hv : InRange v
    · simpa [hv] using hv
    · simp [hv]

end

/-- Settles O12: each instruction by its equation and the end it shares with its kind; that nothing else is refused is
`exec_stops`. -/
theorem wrapRefusedWhereCounterWouldAdvance : Obligations.WrapRefusedWhereCounterWouldAdvance := by
  intro i s
  refine ⟨fun hwrap hic => ?exactly, fun r hr => ?only⟩
  case only =>
    rcases exec_stops (i := i) (s := s) with ⟨t, ht⟩ | ⟨hrefused, hstop⟩
    · simp [ht] at hr
    · exact ⟨Host.Outcome.refused.inj (hr.symm.trans hrefused), hstop⟩
  case exactly =>
    have always {i : Instr}
        (hi : i.mnemonic ∈ [Mnemonic.and, .orr, .xor, .not, .lsr, .asr, .lsl, .load, .stor, .wrte]) :
        exec i s = .refused .counterWraps ↔ True := by
      obtain ⟨u, hexec, ⟨huic, hucfg, -⟩, -⟩ := exec_eq_advance s hi
      exact iff_true_intro (hexec.trans (advance_refused (hucfg ▸ hwrap) (huic ▸ hic)))
    cases i with
    | add a => exact commitAlu_narrow_refused_iff hwrap hic
    | sub a => exact commitAlu_narrow_refused_iff hwrap hic
    | mul a => exact commitAlu_narrow_refused_iff hwrap hic
    | div a =>
      rw [exec_div, commitAlu_refused_iff hwrap hic]
      simp [checkDivisor_quotient_eq_fail_iff, forall_and]
    | mod a =>
      rw [exec_mod, commitAlu_refused_iff hwrap hic]
      simp [checkDivisor_remainder_eq_fail_iff]
    | b a => simp [exec_b]
    | bneg a =>
      rw [exec_bneg, branch_refused_iff hwrap hic, ← Bool.not_eq_true, condN_iff, not_lt]
    | bpos a =>
      rw [exec_bpos, branch_refused_iff hwrap hic, ← Bool.not_eq_true, condP_iff, not_lt]
    | bzro a =>
      rw [exec_bzro, branch_refused_iff hwrap hic, ← Bool.not_eq_true, condZ_iff, ← s16_eq_zero]
    | read a => exact exec_read_refused_iff hwrap hic a
    | halt a => simp [exec_halt]
    | and a | orr a | xor a | not a | lsr a | asr a | lsl a | load a | stor a | wrte a =>
      exact always (by simp [Instr.mnemonic])

end Sys2Proof.Machine
end

section
/-! PROOFS. Reset, launch and the reporter (`10_state.md`, `70_reset_and_hazards.md`). -/

namespace Sys2Proof

/-- R193, as a statement on the image's pairs. -/
theorem RawImage.wf_iff {img : RawImage} : RawImage.wf img = true ↔ ∀ p ∈ img, p.1 < 256 ∧ p.2 < 65536 := by
  simp [RawImage.wf]

end Sys2Proof

namespace Sys2Proof.Machine

/-- Settles O52: the fetch writes all three latches, and nothing before it reads them. -/
theorem latchesNeverReadBeforeFetch : Obligations.LatchesNeverReadBeforeFetch := by
  intro s w x y hs
  have hlatch : State.latch { s with ir := w, opcode := x, operand := y } = s.latch := rfl
  have hs' : AboutToFetch { s with ir := w, opcode := x, operand := y } := hs
  rw [step_of_aboutToFetch hs, step_of_aboutToFetch hs', fetchAndExecute, fetchAndExecute, hlatch]

/-- Settles O1: R23's table; that the latches' values cannot be observed is `latchesNeverReadBeforeFetch`. -/
theorem resetStateValues : Obligations.ResetStateValues :=
  ⟨rfl, rfl, fun _ => rfl, rfl, rfl, rfl, rfl, rfl, fun w x y =>
    latchesNeverReadBeforeFetch State.reset w x y ⟨rfl, rfl⟩⟩

/-- Settles O3: the reset state is built from R23's table whatever the state before. -/
theorem assertedResetRestoresState : Obligations.AssertedResetRestoresState := fun _ =>
  ⟨rfl, rfl, fun _ => rfl, rfl, rfl, rfl, rfl, rfl, rfl, rfl, rfl, rfl, rfl⟩

/-- Settles O5: with nothing loaded the word at address 0 is 0x0000, whose opcode the default map does not have. -/
theorem emptyMemoryEndsUndefined : Obligations.EmptyMemoryEndsUndefined := by
  have hd : decode State.reset.cfg.opc (Memory.read State.reset.mem State.reset.ic) = .undefined 0x00#8 0x00#8 := by
    decide
  rw [Obligations.EmptyMemoryEndsUndefined, step_of_undefined ⟨rfl, rfl⟩ hd]
  exact congrArg Host.Outcome.next (loopCheck_raiseFatal State.reset.latch .undefinedOpcode)

/-- Settles O45: the reporter's read looks at `RUN` first, and its list has one word for each address. -/
theorem reporterReadsOnlyWhenStopped : Obligations.ReporterReadsOnlyWhenStopped := by
  intro s
  cases hrun : s.run with
  | running => simp [observe, hrun]
  | stopped =>
    refine ⟨by simp [observe, hrun], fun r hr => ?_⟩
    simp only [observe, hrun, Option.some.injEq] at hr
    subst hr
    refine ⟨rfl, rfl, rfl, rfl, rfl, by simp, fun a => ?word, ?fatally, ?normally⟩
    case word => simp [Memory.read, a.isLt]
    case fatally => cases hfatal : s.fatal <;> simp [status, hrun, hfatal]
    case normally => cases hfatal : s.fatal <;> simp [status, hrun, hfatal]

/-! ### The loader -/

/-- The entries of an image for one address, in the order they are written. -/
abbrev entriesAt (img : RawImage) (a : Byte) : RawImage := img.filter fun p => p.1 = a.toNat

theorem loadImage_append (img img' : RawImage) (s : State) :
    loadImage (img ++ img') s = loadImage img' (loadImage img s) := List.foldl_append

/-- R193: the loader writes nothing but `MEM`, and keeps its canonical form. -/
theorem loadImage_frame (img : RawImage) {s : State} (hs : Memory.wf s.mem = true) :
    loadImage img s = { s with mem := (loadImage img s).mem } ∧ Memory.wf (loadImage img s).mem = true := by
  induction img generalizing s with
  | nil => exact ⟨rfl, hs⟩
  | cons p img ih =>
    obtain ⟨hframe, hwf⟩ := ih (s := loadWord s p) (Memory.write_wf s.mem _ _ hs)
    exact ⟨hframe, hwf⟩

/-- R193: a word of memory after the loader is the last entry for its address, or what it was before. -/
theorem read_loadImage (img : RawImage) {s : State} (hs : Memory.wf s.mem = true) (himg : RawImage.wf img = true)
    (a : Byte) : Memory.read (loadImage img s).mem a =
      ((entriesAt img a).getLast?.map fun p => BitVec.ofNat 16 p.2).getD (Memory.read s.mem a) := by
  induction img using List.reverseRecOn with
  | nil => rfl
  | append_singleton img p ih =>
    rw [RawImage.wf_iff] at himg ih
    obtain ⟨hp256, -⟩ := himg p (by simp)
    have haddr : a = BitVec.ofNat 8 p.1 ↔ p.1 = a.toNat := by
      rw [← BitVec.toNat_inj, BitVec.toNat_ofNat, Nat.mod_eq_of_lt hp256, eq_comm]
    have hwrite := Memory.read_write (loadImage img s).mem (BitVec.ofNat 8 p.1) a (BitVec.ofNat 16 p.2)
      (loadImage_frame img hs).2
    rw [loadImage_append]
    refine hwrite.trans ?_
    by_cases h : p.1 = a.toNat
    · simp [h, List.filter_append]
    · simp [haddr, h, List.filter_append, ih fun q hq => himg q (List.mem_append_left _ hq)]

theorem launch_eq_some {cfg : Config} {img : RawImage} {input : List Int} {s : State} :
    launch cfg img input = some s ↔ RawImage.wf img = true ∧ loadImage img (State.resetWith cfg input) = s := by
  unfold launch
  split <;> simp_all

/-- Settles O4, by the frame of the loader and the word it leaves at each address. -/
theorem launchHoldsTheImage : Obligations.LaunchHoldsTheImage := by
  intro cfg img input
  refine ⟨by simp [launch], fun s hs => ?_⟩
  obtain ⟨himg, rfl⟩ := launch_eq_some.mp hs
  have hreset := State.resetWith_mem_wf cfg input
  obtain ⟨hframe, hwf⟩ := loadImage_frame img hreset
  refine ⟨hframe, hwf, fun a => (read_loadImage img hreset himg a).trans ?_⟩
  cases (entriesAt img a).getLast? with
  | none => rfl
  | some p => rfl

end Sys2Proof.Machine
end

section
/-! PROOFS. The invariants of `10_state.md` rule R24: at reset, under a step, and in every reachable state. -/

namespace Sys2Proof.Machine

/-- What holds within a pass of the loop, between the decode and the loop check: `MachineInv` but for the two clauses on
`RUN`, which the check is still to make true. -/
structure PassInv (s : State) : Prop where
  memoryWf : Memory.wf s.mem = true
  halves : s.opcode = opcodeOf s.ir ∧ s.operand = operandOf s.ir
  running : s.run = .running
  causeKept : s.fatal = s.cause.isSome
  causeTraced : ∀ c, s.cause = some c → s.trace.getLast? = some (.fatal c)
  noFatalTraced : s.fatal = false → ∀ c, Event.fatal c ∉ s.trace
  waitsInRead : s.waiting = true → s.fatal = false ∧ s.opcode = s.cfg.opc.read ∧ s.ir = Memory.read s.mem s.ic ∧
    s.trace.getLast? = some .prompt

/-- R20: the loop check makes the invariants of a pass those of the machine. -/
theorem PassInv.machineInv {u : State} (hu : PassInv u) : MachineInv (if u.waiting then u else u.loopCheck) := by
  obtain ⟨hmem, hhalves, hrun, hkept, htraced, hnone, hwaits⟩ := hu
  have hwaits' (hw : u.waiting = true) : u.run = .running ∧ u.opcode = u.cfg.opc.read ∧
      u.ir = Memory.read u.mem u.ic ∧ u.trace.getLast? = some .prompt := ⟨hrun, (hwaits hw).2⟩
  rcases loopCheck_cases u with ⟨hu, hgoes⟩ | ⟨hu, hw, hstops⟩
  case inl =>
    have hfatal : u.fatal = false := hgoes.elim (fun hw => (hwaits hw).1) And.right
    rw [hu]
    exact ⟨hmem, hhalves, by simp [hfatal], by simp [hrun], hkept, htraced, hnone, hwaits'⟩
  case inr =>
    rw [hu]
    exact ⟨hmem, hhalves, fun _ => rfl, fun _ => hstops.symm, hkept, htraced, hnone, by simp [hw]⟩

/-- R24 (d), R165: a running machine has raised no fatal error. -/
theorem MachineInv.fatal_of_running {s : State} (hs : MachineInv s) (hrun : s.run = .running) :
    s.fatal = false ∧ s.cause = none := by
  have hfatal : s.fatal = false := by
    by_contra hf
    simpa [hrun] using hs.fatalStops (by simpa using hf)
  exact ⟨hfatal, by simpa [hfatal] using hs.causeKept⟩

/-- A running machine is in a pass where it waits inside READ, and begins one where it fetches. -/
theorem MachineInv.passInv_of_waiting {s : State} (hs : MachineInv s) (hrun : s.run = .running)
    (hw : s.waiting = true) : PassInv s := by
  obtain ⟨hfatal, -⟩ := hs.fatal_of_running hrun
  obtain ⟨-, hread⟩ := hs.waitsInRead hw
  exact ⟨hs.memoryWf, hs.halves, hrun, hs.causeKept, hs.causeTraced, hs.noFatalTraced, fun _ => ⟨hfatal, hread⟩⟩

theorem MachineInv.passInv_latch {s : State} (hs : MachineInv s) (hrun : s.run = .running)
    (hw : s.waiting = false) : PassInv s.latch :=
  ⟨hs.memoryWf, ⟨rfl, rfl⟩, hrun, hs.causeKept, hs.causeTraced, hs.noFatalTraced, by simp [hw]⟩

/-- R164: the fatal error is the last event, and the only fatal one. -/
theorem PassInv.raiseFatal {s : State} (hs : PassInv s) (hw : s.waiting = false) (c : FatalCause) :
    PassInv (s.raiseFatal c) :=
  ⟨hs.memoryWf, hs.halves, hs.running, rfl, fun d hd => by
    obtain rfl : c = d := Option.some.inj hd
    simp, by simp, by simp [hw]⟩

/-- READ's prompt, if it is still to come. -/
def promptEvents (s : State) : List Event := if s.waiting then [] else [.prompt]

theorem State.prompt_trace_append (s : State) : s.prompt.trace = s.trace ++ promptEvents s := by
  cases hw : s.waiting <;> simp [promptEvents, hw]

theorem fatal_not_mem_promptEvents (s : State) (c : FatalCause) : Event.fatal c ∉ promptEvents s := by
  cases hw : s.waiting <;> simp [promptEvents, hw]

section
variable {s : State} (hs : PassInv s) (hfatal : s.fatal = false)
include hs hfatal

theorem PassInv.cause_none : s.cause = none := by
  simpa [hfatal] using hs.causeKept

/-- The invariants of a pass stay where an update writes nothing but registers of the program, memory in canonical form,
input, wait and trace, and adds no fatal event. -/
theorem PassInv.of_frame {t : State} (es : List Event)
    (hframe : t = { s with
      acc := t.acc, ic := t.ic, mem := t.mem, waiting := t.waiting, input := t.input, trace := t.trace })
    (hmem : Memory.wf t.mem = true) (htrace : t.trace = s.trace ++ es) (hes : ∀ c, Event.fatal c ∉ es)
    (hwaits : t.waiting = true → s.opcode = s.cfg.opc.read ∧ s.ir = Memory.read t.mem t.ic ∧
      t.trace.getLast? = some .prompt) : PassInv t := by
  have hcause := hs.cause_none hfatal
  rw [hframe]
  refine ⟨hmem, hs.halves, hs.running, hs.causeKept, by simp [hcause], fun _ c => ?_, fun hw => ⟨hfatal, hwaits hw⟩⟩
  simpa [htrace, hes] using hs.noFatalTraced hfatal c

/-- Every instruction keeps the invariants of the pass it is fetched in. READ alone is executed in a pass that waits. -/
theorem PassInv.of_exec {i : Instr} {t : State} (hop : s.opcode = s.cfg.opc.code i.mnemonic)
    (hir : s.ir = Memory.read s.mem s.ic) (hread : s.waiting = true → i.mnemonic = .read)
    (h : exec i s = .next t) : PassInv t := by
  have notWaiting (hi : i.mnemonic ≠ .read) : s.waiting = false := by
    by_contra hw
    exact hi (hread (by simpa using hw))
  rcases exec_cases h with ⟨harith, c, -, rfl⟩ | ⟨hacc, y, rfl⟩ | ⟨x, hi, -, rfl⟩ | ⟨a, rfl, rfl⟩ | ⟨a, rfl, -, rfl⟩ |
    ⟨a, v, rest, rfl, -, -, rfl⟩ | ⟨a, v, rest, rfl, -, -, rfl⟩ | ⟨a, rfl, rfl⟩ | ⟨a, rfl, rfl⟩
  · have hw := notWaiting fun hm => by cases i <;> cases hm; cases harith
    exact hs.raiseFatal hw c
  · have hw := notWaiting fun hm => by cases i <;> cases hm; cases hacc
    exact hs.of_frame hfatal [] rfl hs.memoryWf (by simp) (by simp) (by simp [hw])
  · have hw := notWaiting fun hm => by simp [hm] at hi
    exact hs.of_frame hfatal [] rfl hs.memoryWf (by simp) (by simp) (by simp [hw])
  · have hw := notWaiting (by simp [Instr.mnemonic])
    exact hs.of_frame hfatal [] rfl (Memory.write_wf _ _ _ hs.memoryWf) (by simp) (by simp) (by simp [hw])
  · have hprompted : s.prompt.trace.getLast? = some .prompt := by
      cases hw : s.waiting with
      | true =>
        obtain ⟨-, -, -, hlast⟩ := hs.waitsInRead hw
        simpa [hw] using hlast
      | false => simp [hw]
    exact hs.of_frame hfatal (promptEvents s) (by rw [State.prompt_eq]; rfl) (by simpa using hs.memoryWf)
      s.prompt_trace_append (fatal_not_mem_promptEvents s) fun _ => ⟨hop, by simpa using hir, hprompted⟩
  · refine hs.of_frame hfatal (promptEvents s ++ [.input v]) (by rw [State.prompt_eq]; rfl) ?_ ?_ ?_ (by simp)
    · simpa using Memory.write_wf s.mem a _ hs.memoryWf
    · simp [s.prompt_trace_append, -State.prompt_trace]
    · simp [fatal_not_mem_promptEvents]
  · refine hs.of_frame hfatal (promptEvents s ++ [.input v, .readRangeWarning]) (by rw [State.prompt_eq]; rfl) ?_ ?_ ?_
      (by simp)
    · simpa using hs.memoryWf
    · simp [s.prompt_trace_append, -State.prompt_trace]
    · simp [fatal_not_mem_promptEvents]
  · have hw := notWaiting (by simp [Instr.mnemonic])
    exact hs.of_frame hfatal [.out (Memory.read s.mem a)] rfl hs.memoryWf (by simp) (by simp) (by simp [hw])
  · exact hs

end

/-- Settles O54: a step that runs is a pass, whose invariants hold at its start, are kept by its instruction, and are
made the machine's by the loop check. -/
theorem stepKeepsInvariants : Obligations.StepKeepsInvariants := by
  intro s t hs h
  rcases step_cases h with ⟨-, rfl⟩ | ⟨hrun, hw, u, hu, rfl⟩ | ⟨hrun, hw, i, u, hd, hu, rfl⟩ |
    ⟨hrun, hw, x, y, -, rfl⟩
  case inl => exact hs
  case inr.inl =>
    obtain ⟨hfatal, -⟩ := hs.fatal_of_running hrun
    obtain ⟨-, hop, hir, -⟩ := hs.waitsInRead hw
    exact ((hs.passInv_of_waiting hrun hw).of_exec (i := .read s.operand) hfatal hop hir (fun _ => rfl) hu).machineInv
  case inr.inr.inl =>
    obtain ⟨hfatal, -⟩ := hs.fatal_of_running hrun
    obtain ⟨hcode, -⟩ := decode_eq_instr hd
    have hlatch := hs.passInv_latch hrun hw
    exact (hlatch.of_exec hfatal hcode.symm rfl (by simp [hw]) hu).machineInv
  case inr.inr.inr =>
    have hraise := (hs.passInv_latch hrun hw).raiseFatal hw .undefinedOpcode
    simpa [hw] using hraise.machineInv

/-- R23, R190: the reset state meets the invariants under any parameters and input. -/
theorem machineInv_resetWith (cfg : Config) (input : List Int) : MachineInv (State.resetWith cfg input) where
  memoryWf := rfl
  halves := ⟨show 0#8 = opcodeOf 0#16 by decide, show 0#8 = operandOf 0#16 by decide⟩
  fatalStops := by simp [State.resetWith]
  stopReason := by simp [State.resetWith]
  causeKept := rfl
  causeTraced := by simp [State.resetWith]
  noFatalTraced := by simp [State.resetWith]
  waitsInRead := by simp [State.resetWith]

/-- Settles O2: the reset state with the default parameters and no input. -/
theorem resetMeetsInvariants : Obligations.ResetMeetsInvariants := machineInv_resetWith defaultConfig []

/-- While no READ waits, the invariants say nothing of the words in memory, only of its form. -/
theorem MachineInv.withMem {s : State} {m : Memory} (hs : MachineInv s) (hw : s.waiting = false)
    (hm : Memory.wf m = true) : MachineInv { s with mem := m } :=
  { hs with memoryWf := hm, waitsInRead := by simp [hw] }

/-- The invariants say nothing of the input. -/
theorem MachineInv.withInput {s : State} (hs : MachineInv s) (input : List Int) :
    MachineInv { s with input := input } :=
  { hs with }

/-- Settles O55, by induction over the agents' moves. -/
theorem reachableStatesKeepInvariants : Obligations.ReachableStatesKeepInvariants := by
  intro s hs
  induction hs with
  | @launch cfg img input s hlaunch =>
    obtain ⟨-, rfl⟩ := launch_eq_some.mp hlaunch
    obtain ⟨hframe, hmem⟩ := loadImage_frame img (State.resetWith_mem_wf cfg input)
    rw [hframe]
    exact (machineInv_resetWith cfg input).withMem rfl hmem
  | step _ hstep ih => exact stepKeepsInvariants _ _ ih hstep
  | supply _ hsupply ih =>
    obtain ⟨-, rfl⟩ := supply_eq_some.mp hsupply
    exact ih.withInput _
  | reset _ _ => exact machineInv_resetWith _ _

/-- Settles O44, by the cases of `FATAL` and of the cause. -/
theorem causeCodeFollowsTheTrace : Obligations.CauseCodeFollowsTheTrace := by
  intro s hs
  have hkept := hs.causeKept
  cases hc : s.cause with
  | none =>
    have hfatal : s.fatal = false := by simpa [hc] using hkept
    exact .inl ⟨hfatal, by simp [levels, hc, causeCode], hs.noFatalTraced hfatal⟩
  | some c =>
    have hfatal : s.fatal = true := by simpa [hc] using hkept
    have hlast := hs.causeTraced c hc
    cases c with
    | accumulatorOverflow => exact .inr (.inl ⟨hfatal, by simp [levels, hc, causeCode], hlast⟩)
    | divideByZero => exact .inr (.inr (.inl ⟨hfatal, by simp [levels, hc, causeCode], hlast⟩))
    | undefinedOpcode => exact .inr (.inr (.inr ⟨hfatal, by simp [levels, hc, causeCode], hlast⟩))

end Sys2Proof.Machine
end

section
/-! PROOFS. Division and remainder under both roundings, and the ALU at a given width (`41_arithmetic.md`,
`40_sequencer_and_dispatch.md` rule R76). -/

namespace Sys2Proof.Machine

/-- R94, R95: past the zero divisor the check is that of the range alone. -/
theorem checkDivisor_of_ne_zero {m : Word} (hm : m ≠ 0#16) (r : Int) : checkDivisor m r = narrow r := by
  simp [checkDivisor, zeroDivisor, hm]

theorem checkDivisor_zero (r : Int) : checkDivisor 0#16 r = .fail .divideByZero := rfl

/-- What DIV and MOD have in common: an instruction that commits the exact result `r` of a division by `m`. -/
theorem exec_divides {i : Instr} {s : State} {m : Word} {r : Int} (h : exec i s = commitAlu (checkDivisor m r) s) :
    (m = 0#16 → exec i s = .next (fatalState .divideByZero s)) ∧ (m ≠ 0#16 → exec i s = commitAlu (narrow r) s) := by
  constructor
  · rintro rfl
    rw [h, checkDivisor_zero]
    rfl
  · intro hm
    rw [h, checkDivisor_of_ne_zero hm]

/-- Settles O15: the check of the divisor, then that of the range, which `quotient_outOfRange_iff` decides. -/
theorem divChecksZeroThenRange : Obligations.DivChecksZeroThenRange := by
  rintro a s m q rfl rfl
  obtain ⟨hzero, hnonzero⟩ := exec_divides (exec_div a s)
  refine ⟨⟨fun _ => rfl, rfl⟩, hzero, fun hm => ?range, fun hm => ?fits, fun hm => ?overflows⟩
  case range =>
    rw [← quotient_outOfRange_iff s.cfg.divRounding (s16_bounds _) (s16_bounds _) (s16_ne_zero hm), not_not]
  case fits => exact (exec_exactOrFatal (hnonzero hm)).1
  case overflows => exact (exec_exactOrFatal (hnonzero hm)).2

/-- Settles O16: the remainder is smaller than the divisor, so the check of the range always passes. -/
theorem modNeverOverflows : Obligations.ModNeverOverflows := by
  rintro a s m r rfl rfl
  obtain ⟨hzero, hnonzero⟩ := exec_divides (exec_mod a s)
  refine ⟨⟨fun _ => rfl, rfl⟩, hzero, fun hm => ?bounds, fun hm => ?fits⟩
  case bounds =>
    have hlt := natAbs_remainder_lt s.cfg.divRounding (s16 s.acc) (s16_ne_zero hm)
    have := s16_bounds (Memory.read s.mem a)
    exact ⟨hlt, by omega⟩
  case fits =>
    exact (exec_exactOrFatal (hnonzero hm)).1 (remainder_inRange _ _ (s16_ne_zero hm) (s16_bounds _))

/-! ### The two roundings -/

/-- R96: the library's `fdiv` is the floor of the exact quotient, for a divisor of either sign. -/
theorem floor_div_eq_fdiv (a b : Int) : ⌊(a : ℚ) / (b : ℚ)⌋ = Int.fdiv a b := by
  have nonneg (a : Int) (n : Nat) : ⌊(a : ℚ) / ((n : Int) : ℚ)⌋ = Int.fdiv a n := by
    rw [Int.fdiv_eq_ediv_of_nonneg a (Int.natCast_nonneg n), Int.cast_natCast, Rat.floor_intCast_div_natCast]
  obtain ⟨n, rfl | rfl⟩ := b.eq_nat_or_neg
  · exact nonneg a n
  · rw [← Int.neg_fdiv_neg, neg_neg, ← nonneg, Int.cast_neg, Int.cast_neg, neg_div, div_neg]

/-- R96: under `truncate` the quotient is 0 or has the sign of the product. -/
theorem sign_quotient_truncate (a b : Int) :
    quotient .truncate a b = 0 ∨ (quotient .truncate a b).sign = (a * b).sign := by
  rw [quotient_truncate, ← Int.sign_eq_zero_iff_zero, Int.sign_tdiv, Int.sign_mul]
  split
  case isTrue => exact .inl rfl
  case isFalse => exact .inr rfl

/-- R96: under `truncate` the remainder is 0 or has the sign of the dividend. -/
theorem sign_remainder_truncate (a b : Int) :
    remainder .truncate a b = 0 ∨ (remainder .truncate a b).sign = a.sign := by
  rw [remainder_truncate, ← Int.sign_eq_zero_iff_zero, Int.sign_tmod]
  split
  case isTrue => exact .inl rfl
  case isFalse => exact .inr rfl

/-- R96: under `floor` the remainder is 0 or has the sign of the divisor. -/
theorem sign_remainder_floor (a : Int) {b : Int} (hb : b ≠ 0) :
    remainder .floor a b = 0 ∨ (remainder .floor a b).sign = b.sign := by
  rw [remainder_floor, or_iff_not_imp_left]
  intro hne
  rcases lt_or_gt_of_ne hb with hneg | hpos
  · have := fmod_bounds_of_neg a hneg
    rw [Int.sign_eq_neg_one_of_neg hneg, Int.sign_eq_neg_one_of_neg (by omega)]
  · have := Int.fmod_nonneg_of_pos a hpos
    rw [Int.sign_eq_one_of_pos hpos, Int.sign_eq_one_of_pos (by omega)]

/-- R96: the two roundings differ only on an inexact quotient that is negative. -/
theorem quotient_truncate_eq_floor {a b : Int} (hb : b ≠ 0) (h : 0 ≤ a * b ∨ b ∣ a) :
    quotient .truncate a b = quotient .floor a b := by
  rw [quotient_truncate, quotient_floor, Int.tdiv_eq_fdiv]
  by_cases hdvd : b ∣ a
  · simp [hdvd]
  · have ha : a ≠ 0 := fun ha => hdvd (ha ▸ dvd_zero b)
    rcases mul_nonneg_iff.mp (h.resolve_right hdvd) with ⟨ha0, hb0⟩ | ⟨ha0, hb0⟩
    · simp [hdvd, ha0, hb0]
    · have hbneg : b < 0 := by omega
      simp [hdvd, show ¬0 ≤ a by omega, show ¬0 ≤ b by omega, Int.sign_eq_neg_one_of_neg hbneg]

/-- Settles O17, by the library's laws of its two divisions. -/
theorem divisionRounding : Obligations.DivisionRounding := by
  refine ⟨rfl, ?_⟩
  rintro a b q r qf rf hb rfl rfl rfl rfl
  refine ⟨Int.natAbs_tdiv a b, sign_quotient_truncate a b, rfl, sign_remainder_truncate a b,
    natAbs_remainder_lt .truncate a hb, (mul_quotient_add_remainder .truncate a b).symm, (floor_div_eq_fdiv a b).symm,
    rfl, sign_remainder_floor a hb, fun hagree => ?agree⟩
  case agree =>
    have hq := quotient_truncate_eq_floor hb hagree
    exact ⟨hq, by rw [remainder, remainder, hq]⟩

/-! ### The ALU at a width -/

theorem natAbs_mul_s16_le (a m : Word) : (s16 a * s16 m).natAbs ≤ 32768 * 32768 := by
  have ha := s16_bounds a
  have hm := s16_bounds m
  rw [Int.natAbs_mul]
  exact Nat.mul_le_mul (by omega) (by omega)

/-- R96: no quotient is larger than dividend and divisor together. -/
theorem natAbs_quotient_le (rounding : DivRounding) (a : Int) {b : Int} (hb : b ≠ 0) :
    (quotient rounding a b).natAbs ≤ a.natAbs + b.natAbs := by
  have hsum := mul_quotient_add_remainder rounding a b
  have hrem := natAbs_remainder_lt rounding a hb
  have hproduct : (quotient rounding a b).natAbs ≤ (b * quotient rounding a b).natAbs := by
    rw [Int.natAbs_mul]
    exact Nat.le_mul_of_pos_left _ (Int.natAbs_pos.mpr hb)
  omega

section
variable {width : Nat} (hwidth : 32 ≤ width) (a m : Word)
include hwidth

/-- The values that 32 bits hold come back from any width of at least 32 bits. -/
theorem bmod_of_width_ge {v : Int} (hv : -2147483648 ≤ v ∧ v ≤ 2147483647) : v.bmod (2 ^ width) = v := by
  have hpow : 2 ^ 32 ≤ 2 ^ width := Nat.pow_le_pow_right (by decide) hwidth
  generalize 2 ^ width = n at *
  exact Int.bmod_eq_of_le (by omega) (by omega)

theorem toInt_signExtend_of_width_ge (w : Word) : (w.signExtend width).toInt = s16 w := by
  rw [BitVec.toInt_signExtend_of_le (by omega), s16_eq_toInt]

theorem exactAtWidth_add (rounding : DivRounding) : exactAtWidth width rounding .add a m = some (s16 a + s16 m) := by
  have := s16_bounds a
  have := s16_bounds m
  simp only [exactAtWidth, BitVec.toInt_add, toInt_signExtend_of_width_ge hwidth]
  rw [bmod_of_width_ge hwidth (by omega)]

theorem exactAtWidth_sub (rounding : DivRounding) : exactAtWidth width rounding .sub a m = some (s16 a - s16 m) := by
  have := s16_bounds a
  have := s16_bounds m
  simp only [exactAtWidth, BitVec.toInt_sub, toInt_signExtend_of_width_ge hwidth]
  rw [bmod_of_width_ge hwidth (by omega)]

theorem exactAtWidth_mul (rounding : DivRounding) : exactAtWidth width rounding .mul a m = some (s16 a * s16 m) := by
  have := natAbs_mul_s16_le a m
  simp only [exactAtWidth, BitVec.toInt_mul, toInt_signExtend_of_width_ge hwidth]
  rw [bmod_of_width_ge hwidth (by omega)]

theorem exactAtWidth_mod (rounding : DivRounding) :
    exactAtWidth width rounding .mod a m = some (remainder rounding (s16 a) (s16 m)) := by
  cases rounding with
  | truncate =>
    simp only [exactAtWidth, BitVec.toInt_srem, toInt_signExtend_of_width_ge hwidth, remainder_truncate]
  | floor =>
    simp only [exactAtWidth, BitVec.toInt_smod, toInt_signExtend_of_width_ge hwidth, remainder_floor]

/-- For `floor` the vector divides what the remainder leaves, which is a multiple of the divisor. -/
theorem exactAtWidth_div {m : Word} (hm : m ≠ 0#16) (rounding : DivRounding) :
    exactAtWidth width rounding .div a m = some (quotient rounding (s16 a) (s16 m)) := by
  have hm0 := s16_ne_zero hm
  have hbounds := s16_bounds a
  have hbounds' := s16_bounds m
  have hquot := natAbs_quotient_le rounding (s16 a) hm0
  cases rounding with
  | truncate =>
    simp only [exactAtWidth, BitVec.toInt_sdiv, toInt_signExtend_of_width_ge hwidth, ← quotient_truncate]
    rw [bmod_of_width_ge hwidth (by omega)]
  | floor =>
    have hrem := natAbs_remainder_lt .floor (s16 a) hm0
    have hsum := mul_quotient_add_remainder .floor (s16 a) (s16 m)
    have hmultiple : s16 a - remainder .floor (s16 a) (s16 m) = s16 m * quotient .floor (s16 a) (s16 m) := by omega
    simp only [exactAtWidth, BitVec.toInt_sdiv, BitVec.toInt_sub, BitVec.toInt_smod,
      toInt_signExtend_of_width_ge hwidth, ← remainder_floor]
    rw [bmod_of_width_ge hwidth (v := s16 a - _) (by omega), hmultiple, Int.mul_tdiv_cancel_left _ hm0,
      bmod_of_width_ge hwidth (by omega)]

end

/-- Settles O18: each arithmetic function computes its exact result at such a width, and the other seven are not
computed at a width. -/
theorem aluWidthDoesNotMatter : Obligations.AluWidthDoesNotMatter := by
  intro width cfg fn a m hwidth
  cases fn with
  | add =>
    rw [aluAtWidth, exactAtWidth_add hwidth]
    simp [alu]
  | sub =>
    rw [aluAtWidth, exactAtWidth_sub hwidth]
    simp [alu]
  | mul =>
    rw [aluAtWidth, exactAtWidth_mul hwidth]
    simp [alu]
  | mod =>
    rw [aluAtWidth, exactAtWidth_mod hwidth]
    simp [alu, checkDivisor, zeroDivisor]
  | div =>
    by_cases hm : m = 0#16
    · subst hm
      cases hr : cfg.divRounding <;> simp [aluAtWidth, exactAtWidth, alu, checkDivisor_zero, hr]
    · rw [aluAtWidth, exactAtWidth_div hwidth a hm]
      simp [alu, checkDivisor_of_ne_zero, hm]
  | and | orr | xor | not | lsr | asr | lsl => rfl

end Sys2Proof.Machine
end

section
/-! PROOFS. LSR and LSL (`43_shift.md`). -/

namespace Sys2Proof.Machine

/-- R111: under both variants every bit but the highest takes its upper neighbour. -/
theorem lsr1_getLsbD_of_lt (variant : LsrVariant) (w : Word) {i : Nat} (hi : i < 15) :
    (lsr1 variant w).getLsbD i = w.getLsbD (i + 1) := by
  cases variant with
  | arithmetic => exact asr1_getLsbD_of_lt w hi
  | logical => rw [lsr1_logical, BitVec.getLsbD_ushiftRight, Nat.add_comm]

theorem lsr1_logical_signBit (w : Word) : (lsr1 .logical w).getLsbD 15 = false := by
  simp [lsr1_logical]

theorem u16_lsr1_logical (w : Word) : u16 (lsr1 .logical w) = ⌊(u16 w : ℚ) / 2⌋ := by
  have hquot : u16 (lsr1 .logical w) = u16 w / 2 := by
    rw [lsr1_logical, u16, u16, BitVec.toNat_ushiftRight, Nat.shiftRight_eq_div_pow]
    rfl
  exact hquot.trans (Rat.floor_intCast_div_natCast (u16 w) 2).symm

/-- R111: the variants differ only in what comes into bit 15, so not on a word whose bit 15 is clear. -/
theorem lsr1_eq_asr1_of_nonneg (variant : LsrVariant) {w : Word} (hw : 0 ≤ s16 w) : lsr1 variant w = asr1 w := by
  cases variant with
  | arithmetic => rfl
  | logical =>
    have hmsb : w.msb = false := by simpa [BitVec.msb_eq_toInt, ← s16_eq_toInt] using hw
    rw [lsr1_logical, asr1_eq, BitVec.sshiftRight_eq_of_msb_false hmsb]

/-- Settles O22: the pattern LSR commits under each variant, by its bits and its value. -/
theorem lsrFollowsItsVariant : Obligations.LsrFollowsItsVariant := by
  refine ⟨rfl, fun a b s => ⟨⟨fun _ => rfl, rfl⟩, fun hs => ?_⟩⟩
  refine ⟨lsr1 s.cfg.lsrVariant s.acc, (exec_lsr a s).trans (advance_setAcc hs _),
    fun i hi => lsr1_getLsbD_of_lt _ s.acc hi, fun hv => ?arithmetic, fun hv => ?logical, fun hacc => ?nonneg⟩
  case arithmetic =>
    rw [exec_lsr, exec_asr, hv]
    exact ⟨rfl, asr1_getLsbD_fifteen s.acc, s16_asr1 s.acc⟩
  case logical =>
    rw [hv]
    exact ⟨lsr1_logical_signBit s.acc, u16_lsr1_logical s.acc⟩
  case nonneg => rw [lsr1_eq_asr1_of_nonneg _ hacc, s16_asr1]

/-- R113: the shift of the pattern is the doubled value, cut to 16 bits. -/
theorem lsl1_eq_pat16 (w : Word) : lsl1 w = pat16 (2 * s16 w) := by
  have htwo : BitVec.ofInt 16 2 = BitVec.twoPow 16 1 := by decide
  rw [lsl1_eq, BitVec.shiftLeft_eq_mul_twoPow, pat16, BitVec.ofInt_mul, htwo, BitVec.mul_comm]
  exact congrArg (BitVec.twoPow 16 1 * ·) (pat16_s16 w).symm

/-- Settles O23: the pattern LSL commits, by its bits and as the doubled value. -/
theorem lslDropsTheSignBit : Obligations.LslDropsTheSignBit := by
  refine fun a s => ⟨⟨fun _ => rfl, rfl⟩, fun hs =>
    ⟨lsl1 s.acc, (exec_lsl a s).trans (advance_setAcc hs _), ?lowest, fun i hi => ?others, lsl1_eq_pat16 s.acc,
      fun hlow hhigh => ?fits⟩⟩
  case lowest => simp [lsl1_eq]
  case others => simp [lsl1_eq, BitVec.getLsbD_shiftLeft, show i + 1 < 16 by omega, -BitVec.getLsbD_eq_getElem]
  case fits => rw [lsl1_eq_pat16, s16_pat16 (by omega)]

end Sys2Proof.Machine
end

section
/-! PROOFS. Pairs of instructions: the three conditional branches, and LOAD before STOR (`44_branch.md`,
`45_load_store.md`). -/

namespace Sys2Proof.Machine

/-- R120: where the target is not the next address, a conditional branch leaves it in `IC` just if it is taken. -/
theorem branch_jumps_iff {c : Bool} {a : Byte} {s : State} (ha : a ≠ s.ic + 1#8) :
    (if c then .next (s.setIc a) else advance s) = Host.Outcome.next { s with ic := a } ↔ c = true := by
  cases c with
  | true => exact iff_of_true rfl rfl
  | false =>
    refine iff_of_false (fun h => ha ?_) Bool.false_ne_true
    simpa using congrArg State.ic (eq_of_advance (s := s) h)

/-- Settles O27: each branch jumps on its wire, and the wires are the three cases of the sign. -/
theorem exactlyOneConditionalBranchTaken : Obligations.ExactlyOneConditionalBranchTaken := by
  intro a s ha
  have hneg : exec (.bneg a) s = .next { s with ic := a } ↔ s16 s.acc < 0 :=
    (branch_jumps_iff ha).trans (condN_iff s.acc)
  have hpos : exec (.bpos a) s = .next { s with ic := a } ↔ 0 < s16 s.acc :=
    (branch_jumps_iff ha).trans (condP_iff s.acc)
  have hzero : exec (.bzro a) s = .next { s with ic := a } ↔ s16 s.acc = 0 :=
    (branch_jumps_iff ha).trans ((condZ_iff s.acc).trans (s16_eq_zero s.acc).symm)
  simp only [List.mem_cons, List.not_mem_nil, or_false]
  rcases lt_trichotomy (s16 s.acc) 0 with h | h | h
  · refine ⟨.bneg a, ⟨by simp, hneg.mpr h⟩, ?_⟩
    rintro i ⟨rfl | rfl | rfl, hi⟩
    · rfl
    · exact absurd (hpos.mp hi) h.not_gt
    · exact absurd (hzero.mp hi) h.ne
  · refine ⟨.bzro a, ⟨by simp, hzero.mpr h⟩, ?_⟩
    rintro i ⟨rfl | rfl | rfl, hi⟩
    · exact absurd h (hneg.mp hi).ne
    · exact absurd h (hpos.mp hi).ne'
    · rfl
  · refine ⟨.bpos a, ⟨by simp, hpos.mpr h⟩, ?_⟩
    rintro i ⟨rfl | rfl | rfl, hi⟩
    · exact absurd (hneg.mp hi) h.not_gt
    · rfl
    · exact absurd (hzero.mp hi) h.ne'

/-- R32: writing back the word that stands at an address changes no data, since equal memories are equal lists. -/
theorem Memory.write_read {m : Memory} (a : Byte) (hm : Memory.wf m = true) :
    Memory.write m a (Memory.read m a) = m := by
  refine Memory.ext_read _ _ (Memory.write_wf m a _ hm) hm fun b => (Memory.read_write m a b _ hm).trans ?_
  split
  case isTrue h => rw [h]
  case isFalse => rfl

/-- Settles O29, by the two outcomes and `Memory.write_read`. -/
theorem loadThenStorKeepsMemory : Obligations.LoadThenStorKeepsMemory := fun a _ hmem hwrap =>
  ⟨_, _, exec_load_next a (.inl hwrap), exec_stor_next a (.inl hwrap), Memory.write_read a hmem, rfl⟩

end Sys2Proof.Machine
end

section
/-! PROOFS. The step as a whole: what it runs, what it answers, and where it leaves the counter
(`40_sequencer_and_dispatch.md`, `10_state.md` rule R14, `47_halt_undefined.md`, `60_exceptions.md` rule R164). -/

namespace Sys2Proof.Machine

/-- Settles O10: the end of a step is the loop check, written out. -/
theorem stepRunsDecodedInstruction : Obligations.StepRunsDecodedInstruction := by
  intro s i hs hd
  rw [step_of_instr hs hd, fetched_eq_latch]
  cases exec i s.latch with
  | next t => rfl
  | fault r => rfl
  | refused r => rfl

/-- A step from a fetch runs an instruction or raises UNDEFINED_OPCODE. -/
theorem step_cases_of_aboutToFetch {s t : State} (hs : AboutToFetch s) (h : step s = .next t) :
    (∃ i u, decode s.cfg.opc (Memory.read s.mem s.ic) = .instr i ∧ exec i s.latch = .next u ∧
      t = if u.waiting then u else u.loopCheck) ∨
      ∃ x y, decode s.cfg.opc (Memory.read s.mem s.ic) = .undefined x y ∧
        t = (s.latch.raiseFatal .undefinedOpcode).loopCheck := by
  obtain ⟨hrun, hwait⟩ := hs
  rcases step_cases h with ⟨hr, -⟩ | ⟨-, hw, -⟩ | ⟨-, -, hinstr⟩ | ⟨-, -, hundefined⟩
  · simp [hrun] at hr
  · simp [hwait] at hw
  · exact .inl hinstr
  · exact .inr hundefined

/-- R81: the loop check writes `RUN` alone. -/
theorem endOfStep_frame (u : State) :
    (if u.waiting then u else u.loopCheck) = { u with run := (if u.waiting then u else u.loopCheck).run } := by
  rcases loopCheck_cases u with ⟨h, -⟩ | ⟨h, -⟩ <;> rw [h]

/-- R81: the loop goes on after an instruction other than HALT that leaves no fatal error. -/
theorem finish_next_of_goesOn {u : State} (hop : u.opcode ≠ u.cfg.opc.halt) (hfatal : u.fatal = false) :
    finish (.next u) = .next u := by
  rcases loopCheck_cases u with ⟨h, -⟩ | ⟨-, -, hstops⟩
  · exact congrArg Host.Outcome.next h
  · simp [hop, hfatal] at hstops

/-- Settles O46: a stopped core answers its state, UNDEFINED answers the fatal error, and an instruction is refused the
wrap alone. -/
theorem stepAnswersNextOrCounterWrap : Obligations.StepAnswersNextOrCounterWrap := by
  intro s
  have ofExec {i : Instr} {u : State} (hrun : s.run = .running) (hcfg : u.cfg = s.cfg) (hic : u.ic = s.ic)
      (h : step s = finish (exec i u)) : (∃ t, step s = .next t) ∨
        (step s = .refused .counterWraps ∧ s.run = .running ∧ s.cfg.icWrap = .fault ∧ s.ic = 0xFF#8) := by
    rcases exec_stops (i := i) (s := u) with ⟨t, ht⟩ | ⟨hrefused, hwrap, hlast⟩
    · exact .inl ⟨_, by rw [h, ht]; rfl⟩
    · exact .inr ⟨by rw [h, hrefused]; rfl, hrun, hcfg ▸ hwrap, hic ▸ hlast⟩
  have hrun : s.run = .running ∨ s.run = .stopped := by cases s.run <;> simp
  rcases hrun with hrun | hrun
  case inr => exact .inl ⟨s, step_of_stopped hrun⟩
  case inl =>
    cases hw : s.waiting with
    | true => exact ofExec (u := s) hrun rfl rfl (step_of_waiting hrun hw)
    | false =>
      cases hd : decode s.cfg.opc (Memory.read s.mem s.ic) with
      | instr i => exact ofExec (u := s.latch) hrun rfl rfl (step_of_instr ⟨hrun, hw⟩ hd)
      | undefined x y => exact .inl ⟨_, step_of_undefined ⟨hrun, hw⟩ hd⟩

/-- The end of a step that fetched and raised a fatal error (R81, R164). -/
theorem endOfStep_raiseFatal {s : State} (hw : s.waiting = false) (c : FatalCause) :
    (if (s.latch.raiseFatal c).waiting then s.latch.raiseFatal c else (s.latch.raiseFatal c).loopCheck) =
      { fetched s with fatal := true, cause := some c, run := .stopped, trace := s.trace ++ [.fatal c] } := by
  rw [State.raiseFatal_waiting, State.latch_waiting, hw]
  exact loopCheck_raiseFatal s.latch c

/-- Settles O39, by the decoder's UNDEFINED and the end of the step that raises it. -/
theorem undefinedOpcodeIsFatal : Obligations.UndefinedOpcodeIsFatal := by
  refine ⟨fun s hs hcode => ?_, fun opc m hwf => OpcodeMap.code_ne_99 hwf m⟩
  have hd := decode_eq_undefined_iff.mpr ⟨hcode, rfl, rfl⟩
  exact (step_of_undefined hs hd).trans (congrArg Host.Outcome.next (endOfStep_raiseFatal hs.2 .undefinedOpcode))

/-- R164: an instruction that sets `FATAL` is arithmetic, and did nothing but raise its error. -/
theorem eq_raiseFatal_of_exec_fatal {i : Instr} {s t : State} (hs : s.fatal = false) (h : exec i s = .next t)
    (ht : t.fatal = true) : i.isArithmetic = true ∧ ∃ c, t = s.raiseFatal c := by
  cases hi : i.isArithmetic with
  | false =>
    obtain ⟨-, -, -, -, -, -, -, hfatal, -⟩ := stateWrittenOnlyAsListed i s t h
    simp [(hfatal hi).1, hs] at ht
  | true =>
    have hacc : i.writesAcc = true := by cases i <;> simp [Instr.isArithmetic, Instr.writesAcc] at hi ⊢
    rcases exec_cases_of_writesAcc hacc h with ⟨-, hc⟩ | ⟨y, rfl⟩
    · exact ⟨rfl, hc⟩
    · simp [hs] at ht

/-- Settles O40: of the ways a step can end only two set `FATAL`, and both only raise an error on what was latched. -/
theorem fatalErrorIsPrecise : Obligations.FatalErrorIsPrecise := by
  intro s t hfatal h ht
  rcases step_cases h with ⟨-, rfl⟩ | ⟨-, -, u, hu, rfl⟩ | ⟨-, hw, i, u, -, hu, rfl⟩ | ⟨-, hw, x, y, -, rfl⟩
  · simp [hfatal] at ht
  · rw [endOfStep_frame] at ht
    obtain ⟨hread, -⟩ := eq_raiseFatal_of_exec_fatal hfatal hu ht
    cases hread
  · rw [endOfStep_frame] at ht
    obtain ⟨-, c, rfl⟩ := eq_raiseFatal_of_exec_fatal (s := s.latch) hfatal hu ht
    exact ⟨c, endOfStep_raiseFatal hw c⟩
  · exact ⟨.undefinedOpcode, loopCheck_raiseFatal s.latch .undefinedOpcode⟩

/-! ### The counter after a step -/

/-- R14: an ALU arm that raises nothing advances. -/
theorem ic_of_commitAlu {r : AluResult} {s t : State} (h : commitAlu r s = .next t) (ht : t.fatal = false) :
    t.ic = s.ic + 1#8 := by
  rcases commitAlu_cases h with ⟨y, -, rfl⟩ | ⟨c, -, rfl⟩
  · rfl
  · simp at ht

theorem ic_of_advance {s t : State} (h : advance s = .next t) : t.ic = s.ic + 1#8 := by
  rw [eq_of_advance h, State.setIc_ic]

theorem ic_of_branch {c : Bool} {a : Byte} {s t : State} (h : branchIf c a s = .next t) :
    t.ic = if c then a else s.ic + 1#8 := by
  rw [eq_setIc_of_branchIf h, State.setIc_ic]

theorem ic_of_read {a : Byte} {s t : State} {v : Int} {rest : List Int} (h : exec (.read a) s = .next t)
    (hin : s.input = v :: rest) : t.ic = if InRange v then s.ic + 1#8 else s.ic := by
  rcases exec_read_cases h with ⟨hempty, -⟩ | ⟨v', rest', hin', hcase⟩
  · simp [hin] at hempty
  · obtain ⟨rfl, rfl⟩ := List.cons.inj (hin.symm.trans hin')
    rcases hcase with ⟨hv, rfl⟩ | ⟨hv, rfl⟩
    · exact (if_pos hv).symm
    · simp [hv]

/-- Settles O13: a fatal error by `fatalErrorIsPrecise`, every instruction by its equation and the end it has. -/
theorem counterAfterEachInstruction : Obligations.CounterAfterEachInstruction := by
  intro s t hs hfatal h hwait
  have atFatal (ht : t.fatal = true) : t.ic = s.ic := by
    obtain ⟨c, rfl⟩ := fatalErrorIsPrecise s t hfatal h ht
    rfl
  refine ⟨atFatal, fun x y hd => atFatal ?_, fun i hd ht => ?_⟩
  · obtain rfl := Host.Outcome.next.inj ((step_of_undefined hs hd).symm.trans h)
    rw [endOfStep_frame]
    rfl
  · rw [step_of_instr hs hd] at h
    obtain ⟨u, hu, rfl⟩ := finish_next h
    rw [endOfStep_frame] at ht ⊢
    cases i with
    | add a | sub a | mul a | div a | mod a => exact (ic_of_commitAlu hu ht :)
    | and a | orr a | xor a | not a | lsr a | asr a | lsl a | load a | stor a | wrte a =>
      exact (ic_of_advance hu :)
    | b a => exact (congrArg State.ic (Host.Outcome.next.inj hu)).symm
    | bneg a => simpa using ic_of_branch (a := a) hu
    | bpos a => simpa using ic_of_branch (a := a) hu
    | bzro a => simpa [s16_eq_zero] using ic_of_branch (a := a) hu
    | read a => exact fun v rest hin => (ic_of_read hu hin :)
    | halt a => exact (congrArg State.ic (Host.Outcome.next.inj hu)).symm

end Sys2Proof.Machine
end

section
/-! PROOFS. Runs: the stopped core, the branch to itself, the store and its later fetch, READ's repetitions and waits
(`40_sequencer_and_dispatch.md` rules R83 and R85, `20_memory.md`, `46_io.md`). -/

namespace Sys2Proof.Machine

/-- A state whose step is itself is left by no run. -/
theorem core_run_of_fixed {s : State} (h : step s = .next s) (k : Nat) : core.run k s = .next s := by
  induction k with
  | zero => rfl
  | succ k ih => rw [core_run_succ k h, ih]

/-- Settles O43: the step of a stopped core is the same state. -/
theorem stoppedIsFinal : Obligations.StoppedIsFinal := fun _ k hrun => core_run_of_fixed (step_of_stopped hrun) k

/-- The step of an instruction other than HALT that leaves no fatal error. -/
theorem step_of_instr_next {i : Instr} {s t : State} (hs : AboutToFetch s) (hwf : s.cfg.opc.wf = true)
    (hd : decode s.cfg.opc (Memory.read s.mem s.ic) = .instr i) (hi : i.mnemonic ≠ .halt)
    (h : exec i s.latch = .next t) (ht : t.fatal = false) : step s = .next t := by
  obtain ⟨hop, hcfg, -⟩ := exec_opcode_cfg_run h
  have hne : t.opcode ≠ t.cfg.opc.halt := by
    rw [hop, hcfg]
    exact opcodeOf_ne_halt hwf hd hi
  rw [step_of_instr hs hd, h, finish_next_of_goesOn hne ht]

/-- R85 (c): a branch to its own address leaves what its fetch latched. -/
theorem step_of_branchToItself {s : State} (hs : AboutToFetch s) (hfatal : s.fatal = false)
    (hwf : s.cfg.opc.wf = true) (hd : decode s.cfg.opc (Memory.read s.mem s.ic) = .instr (.b s.ic)) :
    step s = .next (fetched s) :=
  step_of_instr_next hs hwf hd (by simp [Instr.mnemonic]) (exec_b s.ic s.latch) hfatal

/-- Settles O53: the state after one such step is a fixed point of the step. -/
theorem branchToItselfNeverStops : Obligations.BranchToItselfNeverStops := by
  intro s k hs hfatal hwf hd
  have hfixed : step (fetched s) = .next (fetched s) := step_of_branchToItself (s := fetched s) hs hfatal hwf hd
  rw [core_run_succ k (step_of_branchToItself hs hfatal hwf hd), core_run_of_fixed hfixed]

/-- R72: a step from a fetch leaves the word at `IC` in `IR`. -/
theorem ir_of_step {s t : State} (hs : AboutToFetch s) (h : step s = .next t) : t.ir = Memory.read s.mem s.ic := by
  rcases step_cases_of_aboutToFetch hs h with ⟨i, u, -, hu, rfl⟩ | ⟨x, y, -, rfl⟩
  · obtain ⟨hir, -⟩ := stateWrittenOnlyAsListed i s.latch u hu
    rw [endOfStep_frame]
    exact hir
  · simp

/-- Settles O30: STOR runs on what its fetch latched, and every later fetch reads memory anew. -/
theorem storeSeenByLaterFetch : Obligations.StoreSeenByLaterFetch := by
  intro a s hs hfatal hwf hmem hadv hd
  have hexec := exec_stor_next a (s := s.latch) hadv
  refine ⟨_, step_of_instr_next hs hwf hd (by simp [Instr.mnemonic]) hexec hfatal, hs, rfl, rfl, ?_⟩
  rintro u v hu rfl hread h
  calc
    v.ir = Memory.read u.mem u.ic := ir_of_step hu h
    _ = Memory.read (Memory.write s.mem u.ic s.acc) u.ic := hread
    _ = s.acc := (Memory.read_write s.mem u.ic u.ic s.acc hmem).trans (if_pos rfl)

/-! ### READ's repetitions -/

/-- What the trace shows of a rejected integer (R143). -/
abbrev rejection (x : Int) : List Event := [.prompt, .input x, .readRangeWarning]

/-- A state after READs fetched in `s`: the latches, what the last of them wrote, the integers left, and the
events added. -/
def afterRead (s : State) (m : Memory) (ic : Byte) (rest : List Int) (es : List Event) : State :=
  { fetched s with mem := m, ic := ic, input := rest, trace := s.trace ++ es }

/-- A rejected READ writes neither `MEM` nor `IC`, so the next one finds the same word. -/
theorem afterRead_afterRead (s : State) (m : Memory) (ic : Byte) (rest rest' : List Int) (es es' : List Event) :
    afterRead (afterRead s s.mem s.ic rest es) m ic rest' es' = afterRead s m ic rest' (es ++ es') := by
  simp [afterRead, fetched]

section
variable {a : Byte} {s : State} (hs : AboutToFetch s) (hfatal : s.fatal = false) (hwf : s.cfg.opc.wf = true)
  (hd : decode s.cfg.opc (Memory.read s.mem s.ic) = .instr (.read a))
include hs hfatal hwf hd

theorem step_of_read_rejects {x : Int} {rest : List Int} (hin : s.input = x :: rest) (hx : ¬InRange x) :
    step s = .next (afterRead s s.mem s.ic rest (rejection x)) :=
  step_of_instr_next hs hwf hd (by simp [Instr.mnemonic]) (exec_read_of_outOfRange a (s := s.latch) hs.2 hin hx) hfatal

theorem step_of_read_accepts {v : Int} {rest : List Int} (hadv : CanAdvance s) (hin : s.input = v :: rest)
    (hv : InRange v) :
    step s = .next (afterRead s (Memory.write s.mem a (pat16 v)) (s.ic + 1#8) rest [.prompt, .input v]) :=
  step_of_instr_next hs hwf hd (by simp [Instr.mnemonic])
    (exec_read_of_inRange a (s := s.latch) hs.2 hin hv hadv) hfatal

/-- R143, by induction over the rejected integers. -/
theorem core_run_of_read {bad : List Int} {v : Int} {rest : List Int} (hadv : CanAdvance s)
    (hbad : ∀ x ∈ bad, ¬InRange x) (hv : InRange v) (hin : s.input = bad ++ v :: rest) :
    core.run (bad.length + 1) s = .next (afterRead s (Memory.write s.mem a (pat16 v)) (s.ic + 1#8) rest
      (bad.flatMap rejection ++ [.prompt, .input v])) := by
  induction bad generalizing s with
  | nil => exact core_run_succ 0 (step_of_read_accepts hs hfatal hwf hd hadv hin hv)
  | cons x bad ih =>
    have hstep := step_of_read_rejects hs hfatal hwf hd hin (hbad x (by simp))
    have hrest := ih (s := afterRead s s.mem s.ic (bad ++ v :: rest) (rejection x)) hs hfatal hwf hd hadv
      (fun y hy => hbad y (by simp [hy])) rfl
    refine ((core_run_succ (bad.length + 1) hstep).trans hrest).trans (congrArg Host.Outcome.next ?_)
    rw [List.flatMap_cons, List.append_assoc]
    exact afterRead_afterRead ..

end

/-- Settles O33: the run's state, and `Memory.read_write` for the words of its memory. -/
theorem readRetriesUntilInRange : Obligations.ReadRetriesUntilInRange := by
  intro a s bad v rest hs hfatal hwf hmem hadv hd hbad hv hin
  refine ⟨_, core_run_of_read hs hfatal hwf hd hadv hbad hv hin, ?_, fun b => Memory.read_write s.mem a b _ hmem⟩
  rw [afterRead, ← List.append_assoc]

/-! ### READ's wait -/

/-- Settles O32: without an integer READ prompts unless it has, and waits; a waiting READ is left as it is. -/
theorem readWaitsWithoutAnInteger : Obligations.ReadWaitsWithoutAnInteger := by
  intro a s hin
  have hwaits (b : Byte) (hw : s.waiting = true) : exec (.read b) s = .next s := by
    have hfixed : s.prompt.wait = s := by
      rw [State.prompt, if_pos hw, State.wait, ← hw]
    rw [exec_read_none b s hin, hfixed]
  refine ⟨fun hw => ?prompts, hwaits a, fun hrun hw => ?step⟩
  case prompts =>
    rw [exec_read_none a s hin]
    simp [State.prompt, State.wait, State.emit, hw]
  case step =>
    rw [step_of_waiting hrun hw, hwaits _ hw]
    simp [finish, hw]

/-- READ judges its integer on the state that taking it leaves, and on nothing else. -/
theorem exec_read_congr {a : Byte} {s s' : State} {v : Int} {rest : List Int} (hs : s.input = v :: rest)
    (hs' : s'.input = v :: rest) (htake : s.prompt.take v rest = s'.prompt.take v rest) :
    exec (.read a) s = exec (.read a) s' := by
  rw [exec_read_some a s v rest hs, exec_read_some a s' v rest hs', htake]

/-- What a READ that was left waiting does before it judges its integer: its prompt has been shown already. -/
theorem State.prompt_take_of_waiting {s : State} (hw : s.waiting = true) (v : Int) (rest : List Int) :
    s.prompt.take v rest = { s with waiting := false, input := rest, trace := s.trace ++ [.input v] } := by
  rw [State.prompt, if_pos hw]
  rfl

/-- The state a READ fetched in `s` waits in (R141). -/
def waitingIn (s : State) : State := { fetched s with waiting := true, trace := s.trace ++ [.prompt] }

section
variable {a : Byte} {s : State} (hs : AboutToFetch s)
  (hd : decode s.cfg.opc (Memory.read s.mem s.ic) = .instr (.read a))
include hs hd

theorem step_of_read_waits (hin : s.input = []) : step s = .next (waitingIn s) := by
  have ⟨_, hw⟩ := hs
  obtain ⟨hprompts, -⟩ := readWaitsWithoutAnInteger a s.latch hin
  rw [step_of_instr hs hd, hprompts hw]
  rfl

/-- R85 (d): the integer a waiting READ is supplied does what it would have done at the fetch. -/
theorem step_waitingIn_supplied (v : Int) :
    step { waitingIn s with input := [v] } = step { s with input := [v] } := by
  have ⟨hrun, hw⟩ := hs
  obtain ⟨-, ha⟩ := decode_eq_instr hd
  have htake : State.take (State.prompt { waitingIn s with input := [v] }) v [] =
      State.take (State.prompt (State.latch { s with input := [v] })) v [] := by
    rw [State.prompt_take_of_waiting rfl, State.prompt_take (s := State.latch { s with input := [v] }) hw]
    simp [waitingIn, fetched, State.latch, hw]
  calc
    step { waitingIn s with input := [v] }
      = finish (exec (.read (operandOf (Memory.read s.mem s.ic))) { waitingIn s with input := [v] }) :=
        step_of_waiting hrun rfl
    _ = finish (exec (.read a) (State.latch { s with input := [v] })) := by
        rw [← ha, exec_read_congr rfl rfl htake]
        rfl
    _ = step { s with input := [v] } := (step_of_instr (s := { s with input := [v] }) hs hd).symm

end

/-- Settles O34: after the prompt nothing changes, and taking the integer then leaves what taking it at once does. -/
theorem waitLengthDoesNotMatter : Obligations.WaitLengthDoesNotMatter := by
  intro a s k v hs hd hin
  have ⟨hrun, _⟩ := hs
  obtain ⟨-, -, hfixed⟩ := readWaitsWithoutAnInteger a (waitingIn s) hin
  have hwaits : core.run (k + 1) s = .next (waitingIn s) :=
    (core_run_succ k (step_of_read_waits hs hd hin)).trans (core_run_of_fixed (hfixed hrun rfl) k)
  exact ⟨waitingIn s, hwaits, rfl, _, supply_eq_some.mpr ⟨⟨hrun, rfl, hin⟩, rfl⟩, step_waitingIn_supplied hs hd v⟩

/-- R192, R143: the step of a READ that waits and was supplied an integer ends the wait, by the store or by the
rejection. -/
theorem step_of_supplied {v : Int} {s : State} (hrun : s.run = .running) (hw : s.waiting = true)
    (hin : s.input = [v]) (hadv : CanAdvance s) :
    ∃ u, step s = .next u ∧ u.waiting = false ∧ u.input = [] ∧ u.ic = (if InRange v then s.ic + 1#8 else s.ic) ∧
      u.trace = s.trace ++ (if InRange v then [.input v] else [.input v, .readRangeWarning]) := by
  rw [step_of_waiting hrun hw, exec_read_some _ _ v [] hin, State.prompt_take_of_waiting hw]
  by_cases hv : InRange v
  case pos =>
    rw [if_pos ((inRange_iff v).mpr hv), if_pos hv, if_pos hv, advance_next (by exact hadv)]
    exact ⟨_, rfl, by simp⟩
  case neg =>
    rw [if_neg (mt (inRange_iff v).mp hv), if_neg hv, if_neg hv]
    exact ⟨_, rfl, by simp⟩

/-- Settles O57: the supply's own condition, and the step of the READ it supplied. -/
theorem terminalSuppliesOnlyWaitingRead : Obligations.TerminalSuppliesOnlyWaitingRead := by
  intro v s
  refine ⟨by simp [supply_eq_some], fun t ht => ?_⟩
  obtain ⟨⟨hrun, hw, -⟩, rfl⟩ := supply_eq_some.mp ht
  exact ⟨rfl, fun x => by simp [supply], step_of_supplied (s := { s with input := [v] }) hrun hw rfl⟩

end Sys2Proof.Machine
end

section
/-! PROOFS. The terminal's input and the trace: what a step takes of the one and adds to the other (`46_io.md`). -/

namespace Sys2Proof.Machine

/-- R141: an instruction takes the next integer or none; only READ takes one, and its trace shows it. -/
theorem exec_input_cases {i : Instr} {s t : State} (h : exec i s = .next t) :
    t.input = s.input ∨ ∃ v a es, i = .read a ∧ s.input = v :: t.input ∧ t.trace = s.trace ++ es ∧ .input v ∈ es := by
  by_cases hi : i.mnemonic = .read
  case neg =>
    obtain ⟨-, -, -, -, -, -, -, -, -, hother⟩ := stateWrittenOnlyAsListed i s t h
    exact .inl (hother hi).1
  case pos =>
    obtain ⟨a, rfl⟩ : ∃ a, i = .read a := by cases i <;> simp [Instr.mnemonic] at hi ⊢
    rcases exec_read_cases h with ⟨-, rfl⟩ | ⟨v, rest, hin, ⟨-, rfl⟩ | ⟨-, rfl⟩⟩
    · exact .inl (by simp)
    · exact .inr ⟨v, a, promptEvents s ++ [.input v], rfl, hin,
        by simp [s.prompt_trace_append, -State.prompt_trace], by simp⟩
    · exact .inr ⟨v, a, promptEvents s ++ [.input v, .readRangeWarning], rfl, hin,
        by simp [s.prompt_trace_append, -State.prompt_trace], by simp⟩

/-- The events of a step are what it appends to the trace. -/
theorem newEvents_of_append {s t : State} {es : List Event} (h : t.trace = s.trace ++ es) : newEvents s t = es := by
  rw [newEvents, h, List.drop_left]

/-- Settles O36: the step's instruction takes the integer, and the loop check takes none. -/
theorem inputIsTakenInOrder : Obligations.InputIsTakenInOrder := by
  intro s t h
  rcases step_cases h with ⟨-, rfl⟩ | ⟨-, hw, u, hu, rfl⟩ | ⟨-, -, i, u, hd, hu, rfl⟩ | ⟨-, -, x, y, -, rfl⟩
  · exact .inl rfl
  · rw [endOfStep_frame]
    refine (exec_input_cases hu).imp id ?_
    rintro ⟨v, a, es, -, hin, htrace, hv⟩
    exact ⟨v, hin, newEvents_of_append (es := es) htrace ▸ hv, .inl hw⟩
  · rw [endOfStep_frame]
    refine (exec_input_cases hu).imp id ?_
    rintro ⟨v, a, es, rfl, hin, htrace, hv⟩
    exact ⟨v, hin, newEvents_of_append (es := es) htrace ▸ hv, .inr ⟨a, hd⟩⟩
  · exact .inl (by simp)

/-! ### The trace is never read -/

/-- The state with another trace. -/
def State.withTrace (s : State) (tr : List Event) : State := { s with trace := tr }

/-- From any trace in place of that of `s`, the function `f` answers the same state and appends the same events. -/
def AppendsFrom (f : State → Host.Outcome State Fault Refusal) (s t : State) : Prop :=
  ∃ es, t.trace = s.trace ++ es ∧ ∀ tr, f (s.withTrace tr) = .next (t.withTrace (tr ++ es))

section
variable {f : State → Host.Outcome State Fault Refusal} {s t u : State}

theorem AppendsFrom.congr {g : State → Host.Outcome State Fault Refusal} (hg : AppendsFrom g s t)
    (hfg : ∀ tr, f (s.withTrace tr) = g (s.withTrace tr)) : AppendsFrom f s t := by
  obtain ⟨es, htrace, hnext⟩ := hg
  exact ⟨es, htrace, fun tr => (hfg tr).trans (hnext tr)⟩

/-- What answers one state with the trace left as it is appends nothing. -/
theorem AppendsFrom.of_next (htrace : t.trace = s.trace) (hf : ∀ tr, f (s.withTrace tr) = .next (t.withTrace tr)) :
    AppendsFrom f s t :=
  ⟨[], by rw [htrace, List.append_nil], fun tr => by rw [hf, List.append_nil]⟩

theorem advance_withTrace (h : advance u = .next t) (tr : List Event) :
    advance (u.withTrace tr) = .next (t.withTrace tr) := by
  obtain rfl := eq_of_advance h
  rcases advance_cases u with ⟨-, hadv⟩ | ⟨hrefused, -⟩
  · exact advance_next (s := u.withTrace tr) hadv
  · simp [hrefused] at h

/-- What ends in the increment appends the events it has emitted before. -/
theorem AppendsFrom.of_advance {es : List Event} (h : advance u = .next t) (htrace : u.trace = s.trace ++ es)
    (hf : ∀ tr, f (s.withTrace tr) = advance (u.withTrace (tr ++ es))) : AppendsFrom f s t := by
  refine ⟨es, ?_, fun tr => (hf tr).trans (advance_withTrace h _)⟩
  rw [eq_of_advance h, State.setIc_trace, htrace]

theorem AppendsFrom.of_silent_advance (h : advance u = .next t) (htrace : u.trace = s.trace)
    (hf : ∀ tr, f (s.withTrace tr) = advance (u.withTrace tr)) : AppendsFrom f s t :=
  .of_advance (es := []) h (by rw [htrace, List.append_nil]) fun tr => by rw [hf, List.append_nil]

theorem commitAlu_appendsFrom {r : AluResult} (h : commitAlu r s = .next t) : AppendsFrom (commitAlu r) s t := by
  cases r with
  | value y => exact .of_silent_advance (u := s.setAcc y) h rfl fun _ => rfl
  | fail c =>
    obtain rfl := Host.Outcome.next.inj h
    exact ⟨[.fatal c], rfl, fun _ => rfl⟩

theorem branchIf_appendsFrom {c : Bool} {a : Byte} (h : branchIf c a s = .next t) :
    AppendsFrom (branchIf c a) s t := by
  cases c with
  | true =>
    obtain rfl := Host.Outcome.next.inj h
    exact .of_next rfl fun _ => rfl
  | false => exact .of_silent_advance (u := s) h rfl fun _ => rfl

/-- R143: whether READ prompts does not depend on the trace. -/
theorem State.prompt_take_withTrace (s : State) (v : Int) (rest : List Int) (tr : List Event) :
    (s.withTrace tr).prompt.take v rest =
      (s.prompt.take v rest).withTrace (tr ++ (promptEvents s ++ [.input v])) := by
  cases hw : s.waiting <;> simp [State.prompt, State.withTrace, State.emit, State.take, promptEvents, hw]

theorem exec_read_appendsFrom {a : Byte} (h : exec (.read a) s = .next t) : AppendsFrom (exec (.read a)) s t := by
  cases hin : s.input with
  | nil =>
    rw [exec_read_none a s hin] at h
    obtain rfl := Host.Outcome.next.inj h
    refine ⟨promptEvents s, s.prompt_trace_append, fun tr => ?_⟩
    rw [exec_read_none a (s.withTrace tr) hin]
    cases hw : s.waiting <;> simp [State.prompt, State.withTrace, State.emit, State.wait, promptEvents, hw]
  | cons v rest =>
    have htrace : (s.prompt.take v rest).trace = s.trace ++ (promptEvents s ++ [.input v]) := by
      simp [s.prompt_trace_append, -State.prompt_trace]
    rw [exec_read_some a s v rest hin] at h
    by_cases hv : inRange v = true
    · rw [if_pos hv] at h
      refine .of_advance h htrace fun tr => ?_
      rw [exec_read_some a (s.withTrace tr) v rest hin, if_pos hv, State.prompt_take_withTrace]
      rfl
    · rw [if_neg hv] at h
      obtain rfl := Host.Outcome.next.inj h
      refine ⟨promptEvents s ++ [.input v] ++ [.readRangeWarning], ?_, fun tr => ?_⟩
      · rw [State.emit_trace, htrace, List.append_assoc]
      · rw [exec_read_some a (s.withTrace tr) v rest hin, if_neg hv, State.prompt_take_withTrace,
          ← List.append_assoc tr _ [.readRangeWarning]]
        rfl

/-- Every instruction only appends to the trace, by the end it has. -/
theorem exec_appendsFrom {i : Instr} (h : exec i s = .next t) : AppendsFrom (exec i) s t := by
  cases i with
  | add a => exact (commitAlu_appendsFrom ((exec_add a s).symm.trans h)).congr fun tr => exec_add a (s.withTrace tr)
  | sub a => exact (commitAlu_appendsFrom ((exec_sub a s).symm.trans h)).congr fun tr => exec_sub a (s.withTrace tr)
  | mul a => exact (commitAlu_appendsFrom ((exec_mul a s).symm.trans h)).congr fun tr => exec_mul a (s.withTrace tr)
  | div a => exact (commitAlu_appendsFrom ((exec_div a s).symm.trans h)).congr fun tr => exec_div a (s.withTrace tr)
  | mod a => exact (commitAlu_appendsFrom ((exec_mod a s).symm.trans h)).congr fun tr => exec_mod a (s.withTrace tr)
  | and a => exact .of_silent_advance ((exec_and a s).symm.trans h) rfl fun tr => exec_and a (s.withTrace tr)
  | orr a => exact .of_silent_advance ((exec_orr a s).symm.trans h) rfl fun tr => exec_orr a (s.withTrace tr)
  | xor a => exact .of_silent_advance ((exec_xor a s).symm.trans h) rfl fun tr => exec_xor a (s.withTrace tr)
  | not a => exact .of_silent_advance ((exec_not a s).symm.trans h) rfl fun tr => exec_not a (s.withTrace tr)
  | lsr a => exact .of_silent_advance ((exec_lsr a s).symm.trans h) rfl fun tr => exec_lsr a (s.withTrace tr)
  | asr a => exact .of_silent_advance ((exec_asr a s).symm.trans h) rfl fun tr => exec_asr a (s.withTrace tr)
  | lsl a => exact .of_silent_advance ((exec_lsl a s).symm.trans h) rfl fun tr => exec_lsl a (s.withTrace tr)
  | b a => exact (branchIf_appendsFrom (c := true) (a := a) h).congr fun _ => rfl
  | bneg a => exact (branchIf_appendsFrom (c := condN s.acc) (a := a) h).congr fun _ => rfl
  | bpos a => exact (branchIf_appendsFrom (c := condP s.acc) (a := a) h).congr fun _ => rfl
  | bzro a => exact (branchIf_appendsFrom (c := condZ s.acc) (a := a) h).congr fun _ => rfl
  | load a => exact .of_silent_advance ((exec_load a s).symm.trans h) rfl fun tr => exec_load a (s.withTrace tr)
  | stor a => exact .of_silent_advance ((exec_stor a s).symm.trans h) rfl fun tr => exec_stor a (s.withTrace tr)
  | read a => exact exec_read_appendsFrom h
  | wrte a => exact .of_advance ((exec_wrte a s).symm.trans h) rfl fun tr => exec_wrte a (s.withTrace tr)
  | halt a =>
    obtain rfl := Host.Outcome.next.inj h
    exact .of_next rfl fun _ => rfl

end

theorem State.loopCheck_withTrace (u : State) (tr : List Event) :
    (u.withTrace tr).loopCheck = u.loopCheck.withTrace tr := by
  by_cases h : u.opcode = u.cfg.opc.halt ∨ u.fatal = true <;> simp [State.loopCheck, State.withTrace, h]

/-- The end of a step does not look at the trace. -/
theorem finish_withTrace (u : State) (tr : List Event) :
    finish (.next (u.withTrace tr)) = .next ((if u.waiting then u else u.loopCheck).withTrace tr) := by
  rw [finish, State.loopCheck_withTrace, apply_ite (State.withTrace · tr)]
  rfl

/-- A step that ends what `f` does on the state `v` appends what `f` appends. -/
theorem step_appendsFrom {f : State → Host.Outcome State Fault Refusal} {s v u : State} (hu : AppendsFrom f v u)
    (hv : v.trace = s.trace) (hstep : ∀ tr, step (s.withTrace tr) = finish (f (v.withTrace tr))) :
    AppendsFrom step s (if u.waiting then u else u.loopCheck) := by
  obtain ⟨es, htrace, hnext⟩ := hu
  refine ⟨es, ?_, fun tr => ?_⟩
  · rw [endOfStep_frame, ← hv]
    exact htrace
  · rw [hstep, hnext, finish_withTrace]

theorem execUndefined_appendsFrom (s : State) : AppendsFrom execUndefined s (s.raiseFatal .undefinedOpcode) :=
  ⟨[.fatal .undefinedOpcode], rfl, fun _ => rfl⟩

/-- Settles O37: every way a step can go appends to whatever trace it finds. -/
theorem traceIsNeverRead : Obligations.TraceIsNeverRead := by
  intro s t h
  rcases step_cases h with ⟨hrun, rfl⟩ | ⟨hrun, hw, u, hu, rfl⟩ | ⟨hrun, hw, i, u, hd, hu, rfl⟩ |
    ⟨hrun, hw, x, y, hd, rfl⟩
  · exact AppendsFrom.of_next rfl fun tr => step_of_stopped (s := t.withTrace tr) hrun
  · exact step_appendsFrom (exec_appendsFrom hu) rfl fun tr => step_of_waiting (s := s.withTrace tr) hrun hw
  · exact step_appendsFrom (exec_appendsFrom hu) rfl fun tr => step_of_instr (s := s.withTrace tr) ⟨hrun, hw⟩ hd
  · have happends := step_appendsFrom (s := s) (execUndefined_appendsFrom s.latch) rfl fun tr =>
      step_of_undefined (s := s.withTrace tr) ⟨hrun, hw⟩ hd
    rw [State.raiseFatal_waiting, State.latch_waiting, hw] at happends
    exact happends

end Sys2Proof.Machine
end

section
/-! PROOFS. The four hardware blocks and the step function (`40_sequencer_and_dispatch.md` rules R70 to R80). -/

namespace Sys2Proof.Machine

/-- R78: the commit of a row that increments ends as `advance` does, on the state with the row's other writes. -/
theorem commitRow_inc {c : Control} (hc : c.ic = .inc) (a : Byte) (m y : Word) (v : Int) (s : State) :
    commitRow c a m y v s = advance { s with acc := nextAcc c.acc m y s, mem := nextMem c.mem a v s } := by
  by_cases h : s.cfg.icWrap = .fault ∧ s.ic = 0xFF#8
  · simp [commitRow, nextCounter, hc, advance, h]
  · simp [commitRow, nextCounter, hc, advance, h, State.setIc]

/-- R75, R79: an ALU row whose check is the ALU's own commits as an arithmetic arm does. -/
theorem datapath_aluRow (fn : AluFn) (a : Byte) (s : State) :
    datapath (aluRow true fn .alu) a s = execAluMem fn a s := by
  have hcommit (r : AluResult) :
      checkAndCommit (aluRow true fn .alu) a (Memory.read s.mem a) r 0 s = commitAlu r s := by
    cases r with
    | value y => exact commitRow_inc rfl ..
    | fail c => rfl
  exact hcommit _

/-- R75, R77: a branch's row selects between target and increment as the branch does. -/
theorem datapath_branchRow {sel : CounterSelect} {taken : Bool} {a : Byte} {s : State}
    (hsel : nextCounter sel a s = if taken then some a else nextCounter .inc a s) :
    datapath (branchRow sel) a s = branchIf taken a s := by
  have hcommit : datapath (branchRow sel) a s = commitRow (branchRow sel) a 0#16 0#16 0 s := rfl
  rw [hcommit, commitRow, branchRow, hsel]
  cases taken with
  | true => rfl
  | false => exact commitRow_inc (c := branchRow .inc) rfl ..

/-- R75, R80: READ's row waits, stores or warns as READ does. -/
theorem datapath_read (a : Byte) (s : State) : datapath (controlRow (some .read)) a s = execRead a s := by
  cases hin : s.input with
  | nil => simp only [datapath, controlRow, execRead, hin]
  | cons v rest =>
    simp only [datapath, controlRow, execRead, hin, checkAndCommit, readAccept]
    rw [commitRow_inc rfl]
    rfl

/-- R75: the 21 rows of the table, arm by arm. -/
theorem datapath_controlRow (i : Instr) (s : State) :
    datapath (controlRow (some i.mnemonic)) i.operand s = exec i s := by
  cases i with
  | add a => exact datapath_aluRow .add a s
  | sub a => exact datapath_aluRow .sub a s
  | mul a => exact datapath_aluRow .mul a s
  | div a => exact datapath_aluRow .div a s
  | mod a => exact datapath_aluRow .mod a s
  | and a | orr a | xor a | not a | lsr a | asr a | lsl a | load a | stor a | wrte a => exact commitRow_inc rfl ..
  | b a => exact datapath_branchRow (taken := true) rfl
  | bneg a => exact datapath_branchRow (taken := condN s.acc) rfl
  | bpos a => exact datapath_branchRow (taken := condP s.acc) rfl
  | bzro a => exact datapath_branchRow (taken := condZ s.acc) rfl
  | read a => exact datapath_read a s
  | halt a => rfl

/-- Settles O56: the pass of the blocks dispatches on the mnemonic of the latched opcode, that of the step function on
what the latched word decodes to. -/
theorem blocksAgreeWithStepFunction : Obligations.BlocksAgreeWithStepFunction := by
  refine ⟨datapath_controlRow, fun _ _ => rfl, fun s => ?_⟩
  rw [blocksExecute, fetchAndExecute, State.latch_opcode, State.latch_operand, State.latch_ir, decode]
  cases hm : mnemonicOf s.cfg.opc (opcodeOf (Memory.read s.mem s.ic)) with
  | none => rfl
  | some m =>
    have harm := datapath_controlRow (Instr.ofMnemonic m (operandOf (Memory.read s.mem s.ic))) s.latch
    rwa [Instr.mnemonic_ofMnemonic, Instr.operand_ofMnemonic] at harm

end Sys2Proof.Machine
end
